-- ==== Sys2Proof/Word.lean ====
section
/-! DEFINITION. The word types of the block and the plainest operations on them (00_scope.md R8, R9). -/

namespace Sys2Proof

/-- An 8-bit unsigned value (R8). -/
abbrev Byte := BitVec 8

/-- A command word, an event word or a response word: 32 bits (30_encoding.md R47). -/
abbrev Word := BitVec 32

end Sys2Proof
end

