-- ==== Sys2Proof/Syntax.lean ====
section
/-! DEFINITION. The instructions: one constructor per row of spec/opcode_table.json (30_encoding.md R52). -/

namespace Sys2Proof

/-- The six host commands and the two event words of the line agents (R52, R55). -/
inductive Instr where
  /-- INIT (40_init.md R58): the requested baud rate and `high_speed`. -/
  | init (baud : BitVec 24) (hs : Bool)
  /-- SEND (41_transmit.md R63): the byte to transmit. -/
  | send (b : Byte)
  /-- PEND (42_receive.md R70). -/
  | pend
  /-- READ (42_receive.md R71). -/
  | read
  /-- STAT (43_control.md R76). -/
  | stat
  /-- CLROVF (43_control.md R77). -/
  | clrovf
  /-- RX_EVENT (42_receive.md R68): the byte that has arrived; a step of the RX line, no host command. -/
  | rxEvent (b : Byte)
  /-- TX_DONE (41_transmit.md R64): a step of the TX line, no host command. -/
  | txDone
deriving DecidableEq, Repr

end Sys2Proof
end

