-- ==== Sys2Proof/WellFormed.lean ====
section
/-! DEFINITION. Which instructions the encoding admits. The operand ranges are the types' (30_encoding.md
R48, R49); the one further check is that a baud rate is positive (40_init.md R60). -/

namespace Sys2Proof

/-- R60, R56: INIT takes a baud in 1..16,777,215; every other operand value is legal. -/
def Instr.wellFormed : Instr → Bool
  | .init baud _ => baud != 0
  | .send _ => true
  | .pend => true
  | .read => true
  | .stat => true
  | .clrovf => true
  | .rxEvent _ => true
  | .txDone => true

/-- R52, column "kind": the event words, which only the line agents produce (R55). -/
def Instr.isEvent : Instr → Bool
  | .init _ _ => false
  | .send _ => false
  | .pend => false
  | .read => false
  | .stat => false
  | .clrovf => false
  | .rxEvent _ => true
  | .txDone => true

end Sys2Proof
end

