-- ==== Sys2Proof/Decode.lean ====
section
/-! DEFINITION. From words and bytes to instructions (30_encoding.md R46 to R55), total, rejecting by name,
and the encoder written from the same formats (R48). -/

namespace Sys2Proof

/-- Why a word is no instruction. On the port each of the first four answers ILLEGAL (R54). -/
inductive DecodeError where
  /-- Opcode 0x0, 0x7 or 0xA to 0xF (R52). -/
  | reservedOpcode (op : BitVec 4)
  /-- A bit that the opcode's format does not name is 1 (R48). -/
  | reservedBits
  /-- INIT with `baud = 0` (40_init.md R60). -/
  | zeroBaud
  /-- An event word presented on the command port (R55). -/
  | eventOnPort
  /-- Fewer than the four bytes of a word (R47); a legal port delivers whole words (20_memory.md R36). -/
  | truncated
deriving DecidableEq, Repr

/-- `op = w[31:28]` (R48). -/
def opField (w : Word) : BitVec 4 := w.extractLsb' 28 4

/-- The reserved bits `w[27:25]` of format F_INIT (R48). -/
def initReserved (w : Word) : BitVec 3 := w.extractLsb' 25 3

/-- `hs = w[24]` (R49). -/
def hsField (w : Word) : Bool := w.getLsbD 24

/-- `baud = w[23:0]` (R49). -/
def baudField (w : Word) : BitVec 24 := w.extractLsb' 0 24

/-- The reserved bits `w[27:8]` of format F_BYTE (R48). -/
def byteReserved (w : Word) : BitVec 20 := w.extractLsb' 8 20

/-- `b = w[7:0]` (R49). -/
def byteField (w : Word) : Byte := w.extractLsb' 0 8

/-- The reserved bits `w[27:0]` of format F_NONE (R48). -/
def noneReserved (w : Word) : BitVec 28 := w.extractLsb' 0 28

/-- Format F_INIT, with the order of checks of R53. -/
def decodeInit (w : Word) : Except DecodeError Instr :=
  if initReserved w ≠ 0 then .error .reservedBits
  else if baudField w = 0 then .error .zeroBaud
  else .ok (.init (baudField w) (hsField w))

/-- Format F_BYTE. -/
def decodeByte (w : Word) (mk : Byte → Instr) : Except DecodeError Instr :=
  if byteReserved w ≠ 0 then .error .reservedBits else .ok (mk (byteField w))

/-- Format F_NONE. -/
def decodeNone (w : Word) (i : Instr) : Except DecodeError Instr :=
  if noneReserved w ≠ 0 then .error .reservedBits else .ok i

/-- The opcode map (R52), event words included (R55). -/
def decodeWord (w : Word) : Except DecodeError Instr :=
  match (opField w).toNat with
  | 0x1 => decodeInit w
  | 0x2 => decodeByte w .send
  | 0x3 => decodeNone w .pend
  | 0x4 => decodeNone w .read
  | 0x5 => decodeNone w .stat
  | 0x6 => decodeNone w .clrovf
  | 0x8 => decodeByte w .rxEvent
  | 0x9 => decodeNone w .txDone
  | _ => .error (.reservedOpcode (opField w))

/-- R53: what a word presented on the command port stands for. An event word is no command (R54). -/
def decodePort (w : Word) : Except DecodeError Instr :=
  match decodeWord w with
  | .ok i => if i.isEvent then .error .eventOnPort else .ok i
  | .error e => .error e

/-- A word moved as bytes: little-endian, byte 0 = `w[7:0]` first (20_memory.md R35(c)). -/
def wordBytes (w : Word) : List Byte :=
  [w.extractLsb' 0 8, w.extractLsb' 8 8, w.extractLsb' 16 8, w.extractLsb' 24 8]

/-- The word that four bytes in that order carry. -/
def wordOfBytes (b0 b1 b2 b3 : Byte) : Word := b3 ++ b2 ++ b1 ++ b0

/-- The instruction at the head of any bytes, and the bytes after it: every word is four bytes (R47). -/
def decodeBytes : List Byte → Except DecodeError (Instr × List Byte)
  | b0 :: b1 :: b2 :: b3 :: rest =>
    match decodeWord (wordOfBytes b0 b1 b2 b3) with
    | .ok i => .ok (i, rest)
    | .error e => .error e
  | _ => .error .truncated

/-- Format F_INIT (R48). -/
def formatInit (baud : BitVec 24) (hs : Bool) : Word := 0x1#4 ++ 0#3 ++ BitVec.ofBool hs ++ baud

/-- Format F_BYTE (R48). -/
def formatByte (op : BitVec 4) (b : Byte) : Word := op ++ 0#20 ++ b

/-- Format F_NONE (R48). -/
def formatNone (op : BitVec 4) : Word := op ++ 0#28

/-- The word of an instruction (R48, R52, R55, R56). -/
def encode : Instr → Word
  | .init baud hs => formatInit baud hs
  | .send b => formatByte 0x2#4 b
  | .pend => formatNone 0x3#4
  | .read => formatNone 0x4#4
  | .stat => formatNone 0x5#4
  | .clrovf => formatNone 0x6#4
  | .rxEvent b => formatByte 0x8#4 b
  | .txDone => formatNone 0x9#4

/-- The bits of `w` below `nbits`, as a word. -/
def tableWord (nbits w : Nat) : Word := BitVec.ofNat 32 (w % 2 ^ nbits)

/-- The instruction the decoder reads from the table word `w` laid out as bytes. -/
def decodeTableWord (nbits w : Nat) : Option Instr :=
  match decodeBytes (wordBytes (tableWord nbits w)) with
  | .ok (i, _) => some i
  | .error _ => none

end Sys2Proof
end

