-- ==== Sys2Proof/Config.lean ====
section
/-! DEFINITION. The parameters of the block (00_scope.md R6, R7), the turns its three agents take (R5), and
the free values: what the spec leaves open and no proof can see. -/

namespace Sys2Proof

/-- `OVF_POLICY` (R6): what RX_EVENT does with the data when the buffer is full (42_receive.md R69). -/
inductive OvfPolicy where
  | overwriteOldest
  | dropNewest
  | sourceCompat
deriving DecidableEq, Repr

/-- The parameters of R6 that a rule depends on. They are fixed for one machine: no step writes them. -/
structure Config where
  /-- `CAP`, the capacity of the ring buffer in bytes. -/
  cap : Nat
  /-- `F_CLK`, the input clock frequency in Hz that the divisor formula uses. -/
  fClk : Nat
  /-- `OVF_POLICY`. -/
  ovfPolicy : OvfPolicy
deriving DecidableEq, Repr

/-- The values R6 gives for this hardware. -/
def Config.thisHardware : Config :=
  { cap := 128, fClk := 16000000, ovfPolicy := .overwriteOldest }

/-- R7: the legal configurations; any other is ill-formed and the model refuses it. -/
abbrev Config.WellFormed (c : Config) : Prop := 1 ≤ c.fClk ∧ 1 ≤ c.cap ∧ c.cap ≤ 65535

/-- One turn of the total order of steps (R5): the host's, the RX line's with the byte it draws, or the TX
line's. -/
inductive Turn where
  | host
  | rx (b : Byte)
  | txDone
deriving DecidableEq, Repr, Inhabited

/-- FREE VALUE: which agent takes the `n`-th turn that `State.script` does not name, and which byte a
RX_EVENT then carries. The spec admits every interleaving and every byte (60_exceptions.md R83,
42_receive.md R74, 93_implementation_defined.md U14, U15). Log entry 6. -/
opaque Config.freeTurn : Nat → Turn

/-- FREE VALUE: what slot `i` of the ring buffer holds at power-on, before any RX_EVENT wrote it
(10_state.md R24, 93_implementation_defined.md U7: any value). Log entry 3. -/
opaque Config.resetSlot : Nat → Byte

/-- FREE VALUE: `STOP_BITS` (R6), OPEN in the spec; no rule depends on it and no definition reads it.
Log entry 16. -/
opaque Config.stopBits : Nat

end Sys2Proof
end

