-- ==== Sys2Proof/Machine/State.lean ====
section
/-! DEFINITION. The state of the block (10_state.md R17), of the host agent in front of it, and of the
observation records; the model's reasons to stop; the state after power-on reset (70_reset_and_hazards.md
R93). -/

namespace Sys2Proof.Machine

/-- The ring buffer's storage as (index, byte) pairs: indices strictly rising, an unwritten slot unlisted
(`Memory.wf` in Ops.lean). -/
abbrev Memory := List Host.Cell

/-- Completion status of a host command (30_encoding.md R51). -/
inductive Status where
  | ok
  | empty
  | notInit
  | illegal
deriving DecidableEq, Repr

/-- One item of the host's command stream: a word to present, or the host loop `RECV` (30_encoding.md R57):
`recv` before its first PEND, `poll` after a PEND whose answer the host has yet to look at. Log entry 12. -/
inductive HostItem where
  | word (w : Word)
  | recv
  | poll
deriving DecidableEq, Repr

/-- Why the machine stops with a fault. The block itself never faults (60_exceptions.md R80). -/
inductive Fault where
  /-- Raised by `bufRead` and `bufWrite` (READ, RX_EVENT) for an index at or above `CAP`, which the spec says
  does not exist (20_memory.md R33). No reachable state raises it. Safe: the model stops. Log entry 4. -/
  | slotOutOfRange (i : Nat)
deriving DecidableEq, Repr

/-- Why the model gives no meaning. -/
inductive Refusal where
  /-- Raised only by an arm of `exec` whose instruction has no meaning yet; no arm is left so. Safe. -/
  | notModelled (mnemonic : String)
  /-- Raised by every meaning and by `step` in a machine whose configuration is ill-formed: the spec says
  that the model refuses it (00_scope.md R7, 60_exceptions.md R80). Safe. -/
  | illFormedConfig
deriving DecidableEq, Repr

/-- The whole state. Field names are the spec's, in camel case. -/
structure State where
  /-- The parameters (00_scope.md R6); no step writes them. Log entry 1. -/
  cfg : Config
  /-- `div`, the baud divisor: DIV_H = `div[15:8]`, DIV_L = `div[7:0]` (R18). -/
  div : BitVec 16
  /-- `u2x`, the double-speed mode flag (R19). -/
  u2x : Bool
  /-- `rx_en`, the receiver enable (R20). -/
  rxEn : Bool
  /-- `tx_en`, the transmitter enable (R20). -/
  txEn : Bool
  /-- `rxc_ie`, the receive-complete path enable (R20). -/
  rxcIe : Bool
  /-- `txc_ie`, the transmit-complete path enable (R20). -/
  txcIe : Bool
  /-- `tx_busy`: a byte is in flight (R21). -/
  txBusy : Bool
  /-- `tx_shift`: the byte most recently written by SEND (R22). -/
  txShift : Byte
  /-- `buf`: the ring buffer's storage (R24). -/
  buf : Memory
  /-- `wc`: the write cursor (R25). -/
  wc : Nat
  /-- `rc`: the read cursor (R25). -/
  rc : Nat
  /-- `cnt`: the pending count (R26). -/
  cnt : BitVec 16
  /-- `rx_ovf`: the sticky overflow flag (R27). -/
  rxOvf : Bool
  /-- `tx_wire`: the observation record of departed bytes, oldest first (R23). -/
  txWire : List Byte
  /-- The response words, oldest first (30_encoding.md R46, 70_reset_and_hazards.md R104). Log entry 10. -/
  responses : List Word
  /-- The host agent's: the command that is held on the port, if one is (10_state.md R32(a)). Log entry 11. -/
  held : Option Instr
  /-- The host agent's: what it will present next, in program order (30_encoding.md R46). Log entry 9. -/
  hostQueue : List HostItem
  /-- The MODEL's own: the turns placed from outside, next one first. Log entry 6. -/
  script : List Turn
  /-- The MODEL's own: how many turns have been drawn as free values. Log entry 6. -/
  draws : Nat
deriving DecidableEq, Repr

/-- What one turn, one command or one event answers. -/
abbrev Result := Host.Outcome State Fault Refusal

/-- The state right after power-on of a machine with these parameters (R93). `tx_shift` and the unlisted
slots are unspecified in the spec: log entries 2 and 3 name what stands here. -/
def State.powerOn (c : Config) : State where
  cfg := c
  div := 0x0000
  u2x := false
  rxEn := false
  txEn := false
  rxcIe := false
  txcIe := false
  txBusy := false
  txShift := 0x00
  buf := []
  wc := 0
  rc := 0
  cnt := 0
  rxOvf := false
  txWire := []
  responses := []
  held := none
  hostQueue := []
  script := []
  draws := 0

/-- The state after power-on reset of this hardware (R93 with the parameters of R6). -/
def State.reset : State := State.powerOn Config.thisHardware

end Sys2Proof.Machine
end

