-- ==== Sys2Proof/Machine/Flags.lean ====
section
/-! DEFINITION. The flag byte and the data field of STAT (43_control.md R76). -/

namespace Sys2Proof.Machine

/-- R76: `{0b0, u2x, txc_ie, rxc_ie, tx_en, rx_en, rx_ovf, tx_busy}`, bit 7 first. -/
def statFlags (s : State) : BitVec 8 :=
  0#1 ++ BitVec.ofBool s.u2x ++ BitVec.ofBool s.txcIe ++ BitVec.ofBool s.rxcIe ++
    BitVec.ofBool s.txEn ++ BitVec.ofBool s.rxEn ++ BitVec.ofBool s.rxOvf ++ BitVec.ofBool s.txBusy

/-- R76: `{div[15:0], flags[7:0]}`. -/
def statData (s : State) : BitVec 24 := s.div ++ statFlags s

end Sys2Proof.Machine
end

