-- ==== Sys2Proof/Machine/Operands.lean ====
section
/-! DEFINITION. What commands compute from their operands and how results are put into a response word:
the divisor (40_init.md R59) and the response format (30_encoding.md R50, R51). -/

namespace Sys2Proof.Machine

/-- R49, R59: 8 at high speed, else 16 (never the speed factor 1 or 2: 90_conflicts.md C9). -/
def multiplier (hs : Bool) : Nat := if hs then 8 else 16

/-- R59: `(F_CLK div (m × baud) − 1) mod 2^16`, over unbounded integers with floor division
(90_conflicts.md C2). The only writer of `div` uses it with `baud ≥ 1`. -/
def divisor (fClk : Nat) (baud : BitVec 24) (hs : Bool) : BitVec 16 :=
  BitVec.ofInt 16 (((fClk / (multiplier hs * baud.toNat) : Nat) : Int) - 1)

/-- R51: the two status bits. -/
def Status.code : Status → BitVec 2
  | .ok => 0b00#2
  | .empty => 0b01#2
  | .notInit => 0b10#2
  | .illegal => 0b11#2

/-- R50: the response word, status in 31:30, zero in 29:24, data in 23:0. -/
def responseWord (st : Status) (data : BitVec 24) : Word := st.code ++ 0#6 ++ data

/-- R50: the data field of a response word, which the host reads. -/
def responseData (r : Word) : BitVec 24 := r.extractLsb' 0 24

/-- R9: `zext_24`. -/
def zext24 {n : Nat} (v : BitVec n) : BitVec 24 := v.setWidth 24

end Sys2Proof.Machine
end

