-- ==== Sys2Proof/Machine/Ops.lean ====
section
/-! DEFINITION. The named operations over memory and state that the meanings share: the pseudocode
primitives of 00_scope.md R10, and the refusal of an ill-formed configuration (R7).

The block takes no exception and returns from none: its "exceptions" are non-OK statuses, which `raise`
answers (60_exceptions.md R78), and a handler's entry and return save and restore nothing (R84, R85). -/

namespace Sys2Proof.Machine

/-- The canonical form of the buffer's data: indices strictly rising. An unlisted slot reads as no value, so
no entry can equal what an unlisted slot reads as. -/
abbrev Memory.wf (m : Memory) : Prop := m.Pairwise fun x y => x.1 < y.1

/-- Every listed index is below `cap`. -/
abbrev Memory.below (cap : Nat) (m : Memory) : Prop := ∀ c ∈ m, c.1 < cap

/-- The byte that was written to slot `i`, if one was. -/
def Memory.read : Memory → Nat → Option Byte
  | [], _ => none
  | (j, b) :: m, i => if j = i then some b else Memory.read m i

/-- The memory after byte `b` is written to slot `i`. -/
def Memory.write : Memory → Nat → Byte → Memory
  | [], i, b => [(i, b)]
  | (j, c) :: m, i, b =>
    if i < j then (i, b) :: (j, c) :: m
    else if i = j then (i, b) :: m
    else (j, c) :: Memory.write m i b

/-- What slot `i` reads as: the byte written to it, or the free value of an unwritten slot (R24). Log entry
3. -/
def Memory.slot (m : Memory) (i : Nat) : Byte := (m.read i).getD (Config.resetSlot i)

/-- `BufRead(i)` (R10), `0 ≤ i < CAP`. -/
def bufRead (i : Nat) (s : State) : Except Fault Byte :=
  if i < s.cfg.cap then .ok (s.buf.slot i) else .error (.slotOutOfRange i)

/-- `BufWrite(i, b)` (R10), `0 ≤ i < CAP`. -/
def bufWrite (i : Nat) (b : Byte) (s : State) : Except Fault State :=
  if i < s.cfg.cap then .ok { s with buf := s.buf.write i b } else .error (.slotOutOfRange i)

/-- `(x + 1) mod CAP` (10_state.md R25). -/
def nextIndex (s : State) (x : Nat) : Nat := (x + 1) % s.cfg.cap

/-- `respond(status, data)` (R10). -/
def respond (st : Status) (data : BitVec 24) (s : State) : State :=
  { s with responses := s.responses ++ [responseWord st data] }

/-- `raise <Status>` (R10): the response with data 0 and no other state change (60_exceptions.md R78). -/
def raise (st : Status) (s : State) : State := respond st 0 s

/-- `hold` (R10, R12): nothing of the block changes; the host's command is held. Log entry 11. -/
def hold (i : Instr) (s : State) : State := { s with held := some i }

/-- `emit_tx(b)` (R10, 10_state.md R23). -/
def emitTx (b : Byte) (s : State) : State := { s with txWire := s.txWire ++ [b] }

/-- The outcome of an effect that may have reached for a slot that does not exist. -/
def complete : Except Fault State → Result
  | .ok s => .next s
  | .error f => .fault f

/-- R7: an ill-formed configuration is refused and given no meaning. -/
def onLegalConfig (s : State) (r : Result) : Result :=
  if s.cfg.WellFormed then r else .refused .illFormedConfig

end Sys2Proof.Machine
end

