-- ==== Sys2Proof/Machine/Control.lean ====
section
/-! DEFINITION. STAT and CLROVF (43_control.md R76, R77). -/

namespace Sys2Proof.Machine

/-- R76. -/
def execStat (s : State) : Result := onLegalConfig s <| .next (respond .ok (statData s) s)

/-- R77. -/
def execClrovf (s : State) : Result :=
  onLegalConfig s <| .next (respond .ok 0 { s with rxOvf := false })

end Sys2Proof.Machine
end

