-- ==== Sys2Proof/Machine/Init.lean ====
section
/-! DEFINITION. INIT (40_init.md R58 to R62). -/

namespace Sys2Proof.Machine

/-- The writes of an accepted INIT (R58); it leaves the receive and transmit state alone (R62). -/
def configure (baud : BitVec 24) (hs : Bool) (s : State) : State :=
  { s with
    div := divisor s.cfg.fClk baud hs
    u2x := hs
    rxEn := true
    txEn := true
    rxcIe := true
    txcIe := true }

/-- R58. `baud = 0` is ILLEGAL before the hold test (R60); the decoder gives no such INIT (log entry 13). -/
def execInit (baud : BitVec 24) (hs : Bool) (s : State) : Result :=
  onLegalConfig s <|
    if baud = 0 then .next (raise .illegal s)
    else if s.txBusy then .next (hold (.init baud hs) s)
    else .next (respond .ok 0 (configure baud hs s))

end Sys2Proof.Machine
end

