-- ==== Sys2Proof/Machine/Receive.lean ====
section
/-! DEFINITION. RX_EVENT, PEND and READ (42_receive.md R68 to R71). -/

namespace Sys2Proof.Machine

/-- R68, R81: receiver and notification path are both on. -/
def rxEnabled (s : State) : Bool := s.rxEn && s.rxcIe

/-- R68: the ring buffer is full. -/
abbrev bufferFull (s : State) : Prop := s.cfg.cap ≤ s.cnt.toNat

/-- The data part of `RxFull(b)` (R69), per `OVF_POLICY`. -/
def overflowData (b : Byte) (s : State) : Except Fault State :=
  match s.cfg.ovfPolicy with
  | .overwriteOldest =>
    (bufWrite s.wc b s).map fun t => { t with wc := nextIndex s s.wc, rc := nextIndex s s.rc }
  | .dropNewest => .ok s
  | .sourceCompat =>
    (bufWrite s.wc b s).map fun t => { t with cnt := s.cnt + 1, wc := nextIndex s s.wc }

/-- `RxFull(b)` (R69): the sticky flag is set under every policy. -/
def rxFull (b : Byte) (s : State) : Except Fault State := overflowData b { s with rxOvf := true }

/-- The not-full branch of R68. -/
def rxStore (b : Byte) (s : State) : Except Fault State :=
  (bufWrite s.wc b s).map fun t => { t with cnt := s.cnt + 1, wc := nextIndex s s.wc }

/-- R68. -/
def execRxEvent (b : Byte) (s : State) : Result :=
  onLegalConfig s <|
    if !rxEnabled s then .next s
    else if bufferFull s then complete (rxFull b s)
    else complete (rxStore b s)

/-- R70. -/
def execPend (s : State) : Result :=
  onLegalConfig s <| .next (respond .ok (zext24 s.cnt) s)

/-- R71: EMPTY on underflow, else the byte at the read cursor, consumed. -/
def execRead (s : State) : Result :=
  onLegalConfig s <|
    if s.cnt = 0 then .next (raise .empty s)
    else complete <| (bufRead s.rc s).map fun b =>
      respond .ok (zext24 b) { s with rc := nextIndex s s.rc, cnt := s.cnt - 1 }

end Sys2Proof.Machine
end

