-- ==== Sys2Proof/Machine/Transmit.lean ====
section
/-! DEFINITION. SEND and TX_DONE (41_transmit.md R63, R64). -/

namespace Sys2Proof.Machine

/-- R63: NOT_INIT before any INIT, held while a byte is in flight, else the transmission begins. -/
def execSend (b : Byte) (s : State) : Result :=
  onLegalConfig s <|
    if !s.txEn then .next (raise .notInit s)
    else if s.txBusy then .next (hold (.send b) s)
    else .next (respond .ok 0 { s with txBusy := true, txShift := b })

/-- R64: when a TX_DONE is enabled. -/
def txDoneEnabled (s : State) : Bool := s.txBusy && s.txcIe

/-- R64: the byte has fully departed. In a state where it is not enabled the TX line has no step, and its
turn passes with nothing changed (log entry 7). -/
def execTxDone (s : State) : Result :=
  onLegalConfig s <|
    if txDoneEnabled s then .next { emitTx s.txShift s with txBusy := false }
    else .next s

end Sys2Proof.Machine
end

