-- ==== Sys2Proof/Machine/Dispatch.lean ====
section
/-! DEFINITION. One arm per instruction: its meaning. -/

namespace Sys2Proof.Machine

def exec (i : Instr) (s : State) : Host.Outcome State Fault Refusal :=
  match i with
  | .init baud hs => Sys2Proof.Machine.execInit baud hs s
  | .send b => Sys2Proof.Machine.execSend b s
  | .pend => Sys2Proof.Machine.execPend s
  | .read => Sys2Proof.Machine.execRead s
  | .stat => Sys2Proof.Machine.execStat s
  | .clrovf => Sys2Proof.Machine.execClrovf s
  | .rxEvent b => Sys2Proof.Machine.execRxEvent b s
  | .txDone => Sys2Proof.Machine.execTxDone s

end Sys2Proof.Machine
end

