-- ==== Sys2Proof/Machine/Port.lean ====
section
/-! DEFINITION. The agents' turns (00_scope.md R5): which agent moves next, what the host presents on the
command port (30_encoding.md R46, R53, R57), and how a word is placed so that the next step runs it. -/

namespace Sys2Proof.Machine

/-- Whose turn is next: the first of `script`, or a free value where `script` is used up (60_exceptions.md
R83). Log entry 6. -/
def nextTurn (s : State) : Turn :=
  match s.script with
  | t :: _ => t
  | [] => Config.freeTurn s.draws

/-- The state with that turn taken off. -/
def takeTurn (s : State) : State :=
  match s.script with
  | _ :: ts => { s with script := ts }
  | [] => { s with draws := s.draws + 1 }

/-- The data of the last response the host has received; 0 before any. -/
def lastData (s : State) : BitVec 24 :=
  match s.responses.getLast? with
  | some r => responseData r
  | none => 0

/-- The word the host presents next and its stream after that, for a host with no held command. `RECV`
repeats PEND until the data is not 0, then presents READ (30_encoding.md R57). Log entry 12. -/
def hostPresents (s : State) : Option (Word × List HostItem) :=
  match s.hostQueue with
  | [] => none
  | .word w :: rest => some (w, rest)
  | .recv :: rest => some (encode .pend, .poll :: rest)
  | .poll :: rest =>
    if lastData s = 0 then some (encode .pend, .poll :: rest) else some (encode .read, rest)

/-- R53, R54: a word on the port runs its command; any other word answers ILLEGAL at once and changes
nothing, held or not. -/
def presentWord (w : Word) (s : State) : Result :=
  match decodePort w with
  | .ok i => exec i s
  | .error _ => .next (raise .illegal s)

/-- The host's turn. A held command is retried before anything else (R12, R46); a host with nothing to
present has no step, and its turn passes (log entry 8). -/
def hostTurn (s : State) : Result :=
  match s.held with
  | some i => exec i { s with held := none }
  | none =>
    match hostPresents s with
    | some (w, rest) => presentWord w { s with hostQueue := rest }
    | none => .next s

/-- One agent's turn (R5). -/
def agentTurn (t : Turn) (s : State) : Result :=
  match t with
  | .host => hostTurn s
  | .rx b => exec (.rxEvent b) s
  | .txDone => exec .txDone s

/-- One step of the machine: one turn, in a machine with a legal configuration (R7). -/
def turnStep (s : State) : Result := onLegalConfig s (agentTurn (nextTurn s) (takeTurn s))

/-- The instruction that the next step runs, if it runs one. -/
def issued (s : State) : Option Instr :=
  match nextTurn s with
  | .rx b => some (.rxEvent b)
  | .txDone => some .txDone
  | .host =>
    match s.held with
    | some i => some i
    | none =>
      match hostPresents s with
      | some (w, _) => (decodePort w).toOption
      | none => none

/-- The state with `w` placed so that the next step runs it: an event word as a turn of its line agent
(R55), any other word as the next one on the port, with no command held before it. Log entry 9. -/
def placeWord (w : Word) (s : State) : State :=
  match decodeWord w with
  | .ok (.rxEvent b) => { s with script := .rx b :: s.script }
  | .ok .txDone => { s with script := .txDone :: s.script }
  | _ => { s with script := .host :: s.script, held := none, hostQueue := .word w :: s.hostQueue }

end Sys2Proof.Machine
end

