-- ==== Sys2Proof/Machine/Step.lean ====
section
/-! DEFINITION. The step function and the placing of a word that it fetches next. -/

namespace Sys2Proof.Machine

/-- One atomic step of one agent (00_scope.md R5, R11). -/
def step (s : State) : Host.Outcome State Fault Refusal := turnStep s

/-- `s` with the table word `w` of `nbits` bits placed where the next step takes it from. -/
def State.withFetchWord (s : State) (nbits w : Nat) : State := placeWord (tableWord nbits w) s

end Sys2Proof.Machine
end

