-- ==== Sys2Proof/Machine/Assembler.lean ====
section
/-! DEFINITION. The assembler and the pseudo-instructions (30_encoding.md R56, R57): from lines of text to
what the host presents and to the event words of a trace. The block sees only the words. -/

namespace Sys2Proof.Machine

/-- What one line of a program or of a trace stands for. -/
inductive Placed where
  /-- Items of the host's command stream. -/
  | host (items : List HostItem)
  /-- An event word of a line agent (R55). -/
  | event (w : Word)
deriving DecidableEq, Repr

/-- An operand or an operation as it is written. -/
inductive Token where
  /-- A name or a number. -/
  | atom (cs : List Char)
  /-- A character literal. -/
  | char (c : Char)
  /-- A string. -/
  | text (cs : List Char)
  | comma
deriving DecidableEq, Repr

/-- R57: `SENDARR` is one SEND per element, in order. -/
def sendArray (bs : List Byte) : List Instr := bs.map .send

/-- R57: `SENDSTR` is one SEND per byte before the first NUL, then exactly one `SEND 0`. -/
def sendString (text : List Byte) : List Instr :=
  sendArray (text.takeWhile (· != 0)) ++ [.send 0]

/-- The items that present these instructions. -/
def itemsOf (is : List Instr) : List HostItem := is.map fun i => .word (encode i)

/-- The character code of the apostrophe (log entry 19). -/
def apostrophe : Char := Char.ofNat 39

/-- The character code of the double quote (log entry 19). -/
def doubleQuote : Char := Char.ofNat 34

/-- Whether a character separates tokens. -/
def isSpace (c : Char) : Bool := c == Char.ofNat 32 || c == Char.ofNat 9

/-- The atom read so far, if any, as a token. -/
def flush (cur : List Char) : List Token := if cur = [] then [] else [.atom cur.reverse]

/-- Where the reader of a line stands. -/
inductive Mode where
  /-- Between tokens, or inside the atom read so far (reversed). -/
  | plain (cur : List Char)
  /-- Inside a string, with what has been read of it (reversed). -/
  | quoted (cur : List Char)
  /-- Just after the apostrophe that opens a character literal. -/
  | literal
  /-- After the character of a literal, before the apostrophe that closes it. -/
  | closing (c : Char)
deriving DecidableEq, Repr

/-- The tokens of a line; `;` starts a comment (R56). `none` for an unfinished string or literal. DESIGN CHOICE,
log entry 19: a `;` inside a string or a character literal is that character and starts no comment. -/
def tokens : Mode → List Char → Option (List Token)
  | .plain cur, [] => some (flush cur)
  | .quoted _, [] => none
  | .literal, [] => none
  | .closing _, [] => none
  | .quoted cur, c :: cs =>
    if c = doubleQuote then (tokens (.plain []) cs).map (.text cur.reverse :: ·)
    else tokens (.quoted (c :: cur)) cs
  | .literal, c :: cs => tokens (.closing c) cs
  | .closing d, c :: cs =>
    if c = apostrophe then (tokens (.plain []) cs).map (.char d :: ·) else none
  | .plain cur, c :: cs =>
    if c = ';' then some (flush cur)
    else if isSpace c then (tokens (.plain []) cs).map (flush cur ++ ·)
    else if c = ',' then (tokens (.plain []) cs).map ((flush cur ++ [.comma]) ++ ·)
    else if c = doubleQuote then (tokens (.quoted []) cs).map (flush cur ++ ·)
    else if c = apostrophe then (tokens .literal cs).map (flush cur ++ ·)
    else tokens (.plain (c :: cur)) cs

/-- The value of a digit in bases up to 16. -/
def digit (c : Char) : Option Nat :=
  let n := c.toNat
  if 48 ≤ n ∧ n ≤ 57 then some (n - 48)
  else if 65 ≤ n ∧ n ≤ 70 then some (n - 55)
  else if 97 ≤ n ∧ n ≤ 102 then some (n - 87)
  else none

/-- Digits in a base after those read so far. -/
def digits (base : Nat) : Nat → List Char → Option Nat
  | acc, [] => some acc
  | acc, c :: cs =>
    match digit c with
    | some d => if d < base then digits base (acc * base + d) cs else none
    | none => none

/-- A decimal number of at least one digit. -/
def decimal (cs : List Char) : Option Nat := if cs = [] then none else digits 10 0 cs

/-- A number: `0x` hexadecimal, `0b` binary, else decimal (00_scope.md R8). -/
def number : List Char → Option Nat
  | '0' :: 'x' :: c :: cs => digits 16 0 (c :: cs)
  | '0' :: 'b' :: c :: cs => digits 2 0 (c :: cs)
  | cs => decimal cs

/-- `<byte>`: a number 0..255 or a character literal; a byte above 255 is refused (R56). -/
def byteOperand : Token → Option Byte
  | .atom cs => (number cs).bind fun n => if n ≤ 255 then some (BitVec.ofNat 8 n) else none
  | .char c => if c.toNat ≤ 255 then some (BitVec.ofNat 8 c.toNat) else none
  | .text _ => none
  | .comma => none

/-- The bytes of a string. -/
def textBytes : List Char → Option (List Byte)
  | [] => some []
  | c :: cs =>
    if c.toNat ≤ 255 then (textBytes cs).map (BitVec.ofNat 8 c.toNat :: ·) else none

/-- `b1, b2, …` after a first element: pairs of a comma and a byte. -/
def byteListTail : List Token → Option (List Byte)
  | [] => some []
  | .comma :: t :: ts =>
    match byteOperand t, byteListTail ts with
    | some b, some bs => some (b :: bs)
    | _, _ => none
  | _ => none

/-- The operands of `SENDARR`; none at all for an empty array (R57). -/
def byteList : List Token → Option (List Byte)
  | [] => some []
  | t :: ts =>
    match byteOperand t, byteListTail ts with
    | some b, some bs => some (b :: bs)
    | _, _ => none

/-- `INIT <baud>, <hs>`: refused for a baud of 0 or above 16,777,215 and an `hs` other than 0 or 1 (R56). -/
def assembleInit (baud hs : Nat) : Option Instr :=
  if 1 ≤ baud ∧ baud ≤ 16777215 ∧ hs ≤ 1 then some (.init (BitVec.ofNat 24 baud) (hs == 1)) else none

/-- DESIGN CHOICE, log entry 19: a line may begin with a label, a name with a colon right after it (`c0:`, `L1:` in
the programs of 95_test_vectors.md), which stands for no word and is dropped; R56 is silent on labels. -/
def dropLabel : List Token → List Token
  | .atom cs :: ts => if 2 ≤ cs.length ∧ cs.getLast? = some ':' then ts else .atom cs :: ts
  | ts => ts

/-- The operation of a line, with its operands. A label has been dropped before it. -/
def assembleTokens : List Token → Option Placed
  | [] => some (.host [])
  | .atom op :: args =>
    match op, args with
    | ['I', 'N', 'I', 'T'], [.atom baud, .comma, .atom hs] =>
      match decimal baud, number hs with
      | some n, some m => (assembleInit n m).map fun i => .host (itemsOf [i])
      | _, _ => none
    | ['S', 'E', 'N', 'D'], [t] => (byteOperand t).map fun b => .host (itemsOf [.send b])
    | ['P', 'E', 'N', 'D'], [] => some (.host (itemsOf [.pend]))
    | ['R', 'E', 'A', 'D'], [] => some (.host (itemsOf [.read]))
    | ['S', 'T', 'A', 'T'], [] => some (.host (itemsOf [.stat]))
    | ['C', 'L', 'R', 'O', 'V', 'F'], [] => some (.host (itemsOf [.clrovf]))
    | ['R', 'X'], [t] => (byteOperand t).map fun b => .event (encode (.rxEvent b))
    | ['T', 'X', 'D', 'O', 'N', 'E'], [] => some (.event (encode .txDone))
    | ['S', 'E', 'N', 'D', 'A', 'R', 'R'], ts => (byteList ts).map fun bs => .host (itemsOf (sendArray bs))
    | ['S', 'E', 'N', 'D', 'S', 'T', 'R'], [.text cs] =>
      (textBytes cs).map fun bs => .host (itemsOf (sendString bs))
    | ['R', 'E', 'C', 'V'], [] => some (.host [.recv])
    | _, _ => none
  | _ => none

/-- One line of assembly or of a trace; `none` where the assembler refuses it (R56). -/
def assembleLine (line : List Char) : Option Placed := (tokens (.plain []) line).bind fun ts => assembleTokens (dropLabel ts)

end Sys2Proof.Machine
end

