-- ==== Sys2Proof/Safety.lean ====
section
/-! DEFINITION. The terms in which claims about runs are made: the invariant, the runs from power-on with the
history a claim counts over, the premise TX_COMPLETES, and the end of a run. Nothing here is read by the
machine. -/

namespace Sys2Proof.Machine

/-- 10_state.md R28: a byte is in flight only with the transmitter and its completion path on. -/
def TransmitterOn (s : State) : Prop := s.txBusy = true → s.txEn = true ∧ s.txcIe = true

/-- 10_state.md R29, for the two policies that keep the count within the capacity. -/
def CountFits (s : State) : Prop :=
  s.cfg.ovfPolicy ≠ .sourceCompat → s.cnt.toNat ≤ s.cfg.cap ∧ s.wc = (s.rc + s.cnt.toNat) % s.cfg.cap

/-- 20_memory.md R40, the reason it gives, for every policy: until every slot has been written, the unread
slots are those from `rc` up to `wc`, and all slots below `wc` have been written. -/
def UnreadWritten (s : State) : Prop :=
  (∀ i < s.cfg.cap, (s.buf.read i).isSome) ∨
    (s.rc + s.cnt.toNat = s.wc ∧ ∀ i < s.wc, (s.buf.read i).isSome)

/-- 10_state.md R20: INIT writes the four enables together. -/
def EnablesAgree (s : State) : Prop := s.rxEn = s.txEn ∧ s.rxcIe = s.txEn ∧ s.txcIe = s.txEn

/-- 70_reset_and_hazards.md R95: before the first accepted INIT the block is as reset left it (`tx_shift`,
whose reset value is unspecified, aside). -/
def UntouchedBeforeInit (s : State) : Prop :=
  s.txEn = false →
    s.div = 0 ∧ s.u2x = false ∧ s.txBusy = false ∧ s.buf = [] ∧ s.wc = 0 ∧ s.rc = 0 ∧ s.cnt = 0 ∧
      s.rxOvf = false ∧ s.txWire = []

/-- 00_scope.md R12: only a SEND or an INIT is ever held, and only on a transmitter that is on. -/
def HeldIsSendOrInit (s : State) : Prop :=
  ∀ i, s.held = some i → s.txEn = true ∧ i.wellFormed = true ∧ ((∃ b, i = .send b) ∨ ∃ baud hs, i = .init baud hs)

/-- The invariant of the machine. -/
structure Inv (s : State) : Prop where
  config : s.cfg.WellFormed
  writeCursor : s.wc < s.cfg.cap
  readCursor : s.rc < s.cfg.cap
  canonical : s.buf.wf
  slots : s.buf.below s.cfg.cap
  count : CountFits s
  written : UnreadWritten s
  transmitter : TransmitterOn s
  enables : EnablesAgree s
  beforeInit : UntouchedBeforeInit s
  heldCommand : HeldIsSendOrInit s

/-- 10_state.md R30: the unread bytes, oldest first: the slots from `rc` upward modulo `CAP`. -/
def unread (s : State) : List Byte :=
  (List.range s.cnt.toNat).map fun k => s.buf.slot ((s.rc + k) % s.cfg.cap)

/-- The byte in flight, if one is (R13, R32(b)). -/
def inFlight (s : State) : List Byte := bif s.txBusy then [s.txShift] else []

/-- The byte of a held SEND, if one is held (R32(a)). -/
def heldByte (s : State) : List Byte :=
  match s.held with
  | some (.send b) => [b]
  | _ => []

/-- What has departed since the record was empty, then the byte in flight, then the byte of a held SEND. -/
def takenBytes (s : State) : List Byte := s.txWire ++ inFlight s ++ heldByte s

/-- A program that presents no SEND. -/
def SendsNothing (program : List HostItem) : Prop :=
  ∀ w b, HostItem.word w ∈ program → decodePort w ≠ .ok (.send b)

/-- 41_transmit.md R67: the SENDs of the bytes `bs`, which the host of state `s` presents before the program
`following`, append exactly `bs` to the record, as seen in a later state `t` of the run. The host of `t` has
presented all of them once its program is no longer than `following`. -/
structure AppendsExactly (bs : List Byte) (following : List HostItem) (s t : State) : Prop where
  /-- What has departed is a part of `bs` from its start, or all of `bs` and then bytes of later SENDs. -/
  inOrder : t.txWire <+: s.txWire ++ bs ∨ s.txWire ++ bs <+: t.txWire
  /-- While some are still to be presented, those already taken and those still to come make up `bs`. -/
  toCome : following.length < t.hostQueue.length → ∃ rest, t.hostQueue = itemsOf (sendArray rest) ++ following ∧
    takenBytes t ++ rest = s.txWire ++ bs
  /-- Once all are presented, all of `bs` has departed but for what is in flight or held. -/
  presented : t.hostQueue.length ≤ following.length → s.txWire ++ bs <+: takenBytes t
  /-- Once all are presented and have departed, all of `bs` has, whatever the host has presented since. -/
  departed : t.hostQueue.length ≤ following.length → t.txBusy = false → heldByte t = [] →
    s.txWire ++ bs <+: t.txWire
  /-- Where no SEND follows, nothing but `bs` is ever taken, ... -/
  nothingElse : SendsNothing following → t.hostQueue.length ≤ following.length → takenBytes t = s.txWire ++ bs
  /-- ... and the record ends as exactly `bs` appended, also where later commands were presented before the last
  TX_DONE. -/
  exactly : SendsNothing following → t.hostQueue.length ≤ following.length → t.txBusy = false → heldByte t = [] →
    t.txWire = s.txWire ++ bs
  /-- Whatever follows, the record is exactly `bs` appended while nothing of `following` has been presented. -/
  before : t.hostQueue = following → t.held = none → t.txBusy = false → t.txWire = s.txWire ++ bs

/-- What a claim about a run counts: not state of the machine (log entry 18). -/
structure History where
  /-- The bytes of the enabled RX_EVENTs, in arrival order; their number is `n_rx` of R29. -/
  rxBytes : List Byte
  /-- The bytes of the READs that answered OK, in order; their number is `n_rd` of R29. -/
  readBytes : List Byte
  /-- The bytes of the accepted SENDs, in acceptance order (R65). -/
  sentBytes : List Byte
  /-- Whether an enabled RX_EVENT has taken the full branch (R69, R72). -/
  overflowed : Bool
deriving DecidableEq, Repr

/-- The history at power-on. -/
def History.start : History := { rxBytes := [], readBytes := [], sentBytes := [], overflowed := false }

/-- The history after instruction `i` is run in state `s`. -/
def History.record (i : Instr) (s : State) (h : History) : History :=
  match i with
  | .init _ _ => h
  | .send b => if s.txEn && !s.txBusy then { h with sentBytes := h.sentBytes ++ [b] } else h
  | .pend => h
  | .read => if s.cnt = 0 then h else { h with readBytes := h.readBytes ++ [s.buf.slot s.rc] }
  | .stat => h
  | .clrovf => h
  | .rxEvent b =>
    if rxEnabled s then
      { h with rxBytes := h.rxBytes ++ [b], overflowed := h.overflowed || decide (bufferFull s) }
    else h
  | .txDone => h

/-- The history after the step that state `s` takes. -/
def History.afterStep (s : State) (h : History) : History :=
  match issued s with
  | some i => h.record i s
  | none => h

/-- The runs from power-on: any legal configuration, any program of the host, any turns of the agents, and
any value of what reset leaves unspecified (70_reset_and_hazards.md R93, R94). -/
inductive Run : State → History → Prop where
  | powerOn (c : Config) (hc : c.WellFormed) (program : List HostItem) (turns : List Turn) (shift : Byte)
      (n : Nat) :
      Run { State.powerOn c with hostQueue := program, script := turns, txShift := shift, draws := n }
        History.start
  | step {s t : State} {h : History} (r : Run s h) (e : Machine.step s = .next t) : Run t (h.afterStep s)

/-- `n` steps, stopping at a fault or a refusal. -/
def runSteps : Nat → State → Result
  | 0, s => .next s
  | n + 1, s =>
    match step s with
    | .next t => runSteps n t
    | .fault f => .fault f
    | .refused r => .refused r

/-- How many of the next `n` steps run a READ. -/
def readsIssued : Nat → State → Nat
  | 0, _ => 0
  | n + 1, s =>
    match step s with
    | .next t => (if issued s = some .read then 1 else 0) + readsIssued n t
    | .fault _ => 0
    | .refused _ => 0

/-- A `RECV` loop of the host is sound (30_encoding.md R57, program P5 of 95_test_vectors.md): only the item at
the head is a loop in progress, nothing is held then, and once its PEND has been answered with data other than
0 the count is not 0. -/
def RecvSound (s : State) : Prop :=
  HostItem.poll ∉ s.hostQueue.tail ∧
    (s.hostQueue.head? = some .poll → s.held = none ∧ (lastData s ≠ 0 → s.cnt ≠ 0))

/-- TX_COMPLETES (70_reset_and_hazards.md R103): in the run from `s`, a TX_DONE that is enabled eventually
happens (once enabled, only its happening disables it). -/
def TxCompletes (s : State) : Prop :=
  ∀ n t, runSteps n s = .next t → txDoneEnabled t = true →
    ∃ m u, runSteps m t = .next u ∧ nextTurn u = .txDone

/-- When the host has a step (00_scope.md R12, 60_exceptions.md R80): a held command has one only once the byte in
flight is gone; with nothing held it has one as long as its program has not been used up. -/
def hostHasStep (s : State) : Bool :=
  match s.held with
  | some _ => !s.txBusy
  | none => !s.hostQueue.isEmpty

/-- The host's part of 70_reset_and_hazards.md R103: in the run from `s`, the host takes its next step whenever it
has one (a step that it has stays until the host takes it). -/
def HostProceeds (s : State) : Prop :=
  ∀ n t, runSteps n s = .next t → hostHasStep t = true → ∃ m u, runSteps m t = .next u ∧ nextTurn u = .host

/-- The three conditions of 70_reset_and_hazards.md R104: everything answered, nothing held, nothing in flight. -/
def RunEnded (s : State) : Prop := s.hostQueue = [] ∧ s.held = none ∧ s.txBusy = false

/-- R104: the run from `s` ends after `n` steps, in `t`: the first state where the three conditions hold. -/
def EndsAt (s : State) (n : Nat) (t : State) : Prop :=
  runSteps n s = .next t ∧ RunEnded t ∧ ∀ m < n, ∀ u, runSteps m s = .next u → ¬RunEnded u

/-- R104: the final observation of a run: the response words, `tx_wire` and the fields of 10_state.md R17. -/
structure Observation where
  responses : List Word
  txWire : List Byte
  div : BitVec 16
  u2x : Bool
  rxEn : Bool
  txEn : Bool
  rxcIe : Bool
  txcIe : Bool
  txBusy : Bool
  txShift : Byte
  buf : Memory
  wc : Nat
  rc : Nat
  cnt : BitVec 16
  rxOvf : Bool
deriving DecidableEq, Repr

/-- What is observed of a state. -/
def State.observation (s : State) : Observation where
  responses := s.responses
  txWire := s.txWire
  div := s.div
  u2x := s.u2x
  rxEn := s.rxEn
  txEn := s.txEn
  rxcIe := s.rxcIe
  txcIe := s.txcIe
  txBusy := s.txBusy
  txShift := s.txShift
  buf := s.buf
  wc := s.wc
  rc := s.rc
  cnt := s.cnt
  rxOvf := s.rxOvf

/-- R104: `o` is the final observation of the run from `s`, which ends. -/
def FinalObservation (s : State) (o : Observation) : Prop := ∃ n t, EndsAt s n t ∧ o = t.observation

end Sys2Proof.Machine
end

