-- ==== Sys2Proof/Certificates/Slice0/Obligations.lean ====
section
/-! DEFINITION. What the provers are asked to prove about the model, rule by rule of the spec. -/

open Sys2Proof Sys2Proof.Machine

/-! ## Encoding -/

/-- 30_encoding.md R48, R52, R55: a few words, written out from the formats, stand for what the spec says. -/
def Obligations.WordsOfTheSpecDecode : Prop :=
  decodeWord 0b0001_000_0_000000000010010110000000#32 = .ok (.init 9600 false) ∧
  decodeWord 0b0001_000_1_000111101000010010000001#32 = .ok (.init 2000001 true) ∧
  decodeWord 0b0010_00000000000000000000_01000001#32 = .ok (.send 0x41) ∧
  decodeWord 0b0011_0000000000000000000000000000#32 = .ok .pend ∧
  decodeWord 0b0100_0000000000000000000000000000#32 = .ok .read ∧
  decodeWord 0b0101_0000000000000000000000000000#32 = .ok .stat ∧
  decodeWord 0b0110_0000000000000000000000000000#32 = .ok .clrovf ∧
  decodeWord 0b1000_00000000000000000000_01011010#32 = .ok (.rxEvent 0x5A) ∧
  decodeWord 0b1001_0000000000000000000000000000#32 = .ok .txDone ∧
  decodePort 0x00000000#32 = .error (.reservedOpcode 0x0) ∧
  decodePort 0x10000000#32 = .error .zeroBaud ∧
  decodePort 0x12002580#32 = .error .reservedBits ∧
  decodePort 0x20000100#32 = .error .reservedBits ∧
  decodePort 0x50800000#32 = .error .reservedBits ∧
  decodePort 0x70000000#32 = .error (.reservedOpcode 0x7) ∧
  decodePort 0x80000041#32 = .error .eventOnPort ∧
  decodePort 0x90000000#32 = .error .eventOnPort ∧
  decodePort 0xFFFFFFFF#32 = .error (.reservedOpcode 0xF)

/-- 30_encoding.md R53: what the port does with a word, opcode by opcode, in the order of the checks. It holds
of every state, so an ILLEGAL word is answered at once, even while a byte is in flight. -/
def Obligations.PortDecodesInTheOrderOfChecks : Prop :=
  ∀ (w : Word) (s : State),
    let op := (w.extractLsb' 28 4).toNat
    let illegal : Result := .next { s with responses := s.responses ++ [0xC0000000] }
    (op = 0x1 → presentWord w s =
      if w.extractLsb' 25 3 ≠ 0 then illegal
      else if w.extractLsb' 0 24 = 0 then illegal
      else exec (.init (w.extractLsb' 0 24) (w.getLsbD 24)) s) ∧
    (op = 0x2 → presentWord w s =
      if w.extractLsb' 8 20 ≠ 0 then illegal else exec (.send (w.extractLsb' 0 8)) s) ∧
    (op = 0x3 → presentWord w s = if w.extractLsb' 0 28 ≠ 0 then illegal else exec .pend s) ∧
    (op = 0x4 → presentWord w s = if w.extractLsb' 0 28 ≠ 0 then illegal else exec .read s) ∧
    (op = 0x5 → presentWord w s = if w.extractLsb' 0 28 ≠ 0 then illegal else exec .stat s) ∧
    (op = 0x6 → presentWord w s = if w.extractLsb' 0 28 ≠ 0 then illegal else exec .clrovf s) ∧
    (op = 0x0 ∨ 0x7 ≤ op → presentWord w s = illegal)

/-- 30_encoding.md R54: the words that are no command, and only they, are refused on the port, and the answer
0xC0000000 is all they do. -/
def Obligations.IllegalWordsAreThese : Prop :=
  ∀ w : Word,
    let op := (w.extractLsb' 28 4).toNat
    ((∃ e, decodePort w = .error e) ↔
      op = 0x0 ∨ op = 0x7 ∨ 0xA ≤ op ∨ op = 0x8 ∨ op = 0x9 ∨
        (op = 0x1 ∧ w.extractLsb' 25 3 ≠ 0) ∨ (op = 0x2 ∧ w.extractLsb' 8 20 ≠ 0) ∨
        (0x3 ≤ op ∧ op ≤ 0x6 ∧ w.extractLsb' 0 28 ≠ 0) ∨ (op = 0x1 ∧ w.extractLsb' 0 24 = 0)) ∧
    ((∃ e, decodePort w = .error e) →
      ∀ s : State, presentWord w s = .next { s with responses := s.responses ++ [0xC0000000] })

/-- Decoding gives back every well-formed instruction from its word, from its bytes with any bytes after them
(20_memory.md R35), and on the port exactly where it is a host command (30_encoding.md R52). -/
def Obligations.DecodeOfEncode : Prop :=
  ∀ i : Instr, i.wellFormed = true →
    decodeWord (encode i) = .ok i ∧
    (∀ rest, decodeBytes (wordBytes (encode i) ++ rest) = .ok (i, rest)) ∧
    decodePort (encode i) = if i.isEvent then .error .eventOnPort else .ok i

/-- Every word has one meaning: whatever decodes is the encoding of what it decodes to, and is well-formed. -/
def Obligations.EncodeOfDecode : Prop :=
  ∀ (w : Word) (i : Instr), decodeWord w = .ok i → encode i = w ∧ i.wellFormed = true

/-- 30_encoding.md R56, the table of the assembler, in its own arithmetic on words. -/
def Obligations.WordsOfTheAssemblerTable : Prop :=
  (∀ (baud : BitVec 24) (hs : Bool),
    encode (.init baud hs) = (0x1#32 <<< 28 ||| (BitVec.ofBool hs).setWidth 32 <<< 24 ||| baud.setWidth 32)) ∧
  (∀ b : Byte, encode (.send b) = 0x20000000#32 ||| b.setWidth 32) ∧
  (∀ b : Byte, encode (.rxEvent b) = 0x80000000#32 ||| b.setWidth 32) ∧
  encode .pend = 0x30000000 ∧ encode .read = 0x40000000 ∧ encode .stat = 0x50000000 ∧
  encode .clrovf = 0x60000000 ∧ encode .txDone = 0x90000000

/-- 20_memory.md R35(c): a word moved as bytes is moved little-endian, and nothing of it is lost. -/
def Obligations.WordsMoveLittleEndian : Prop :=
  ∀ w : Word, ∃ b0 b1 b2 b3 : Byte,
    wordBytes w = [b0, b1, b2, b3] ∧ wordOfBytes b0 b1 b2 b3 = w ∧
    w.toNat = b0.toNat + 2 ^ 8 * b1.toNat + 2 ^ 16 * b2.toNat + 2 ^ 24 * b3.toNat

/-- 30_encoding.md R50, R51: the fields of a response word, and the four words with data 0. -/
def Obligations.ResponseWordFields : Prop :=
  (∀ (st : Status) (d : BitVec 24),
    (responseWord st d).extractLsb' 30 2 = st.code ∧
    (responseWord st d).extractLsb' 24 6 = 0 ∧
    (responseWord st d).extractLsb' 0 24 = d) ∧
  responseWord .ok 0 = 0x00000000 ∧ responseWord .empty 0 = 0x40000000 ∧
  responseWord .notInit 0 = 0x80000000 ∧ responseWord .illegal 0 = 0xC0000000

/-- 30_encoding.md R56: what the assembler refuses of an INIT, and what it makes of the rest. -/
def Obligations.AssemblerRefusesBadInit : Prop :=
  ∀ (baud hs : Nat) (i : Instr),
    assembleInit baud hs = some i ↔
      1 ≤ baud ∧ baud ≤ 16777215 ∧ hs ≤ 1 ∧ i = .init (BitVec.ofNat 24 baud) (decide (hs = 1))

/-- 30_encoding.md R57: `SENDARR` is one SEND per element in order; `SENDSTR` one per byte before the first
NUL, then exactly one `SEND 0`, also for an empty text and for a text with bytes after a NUL. -/
def Obligations.StringExpansion : Prop :=
  (∀ bs : List Byte, (sendArray bs).length = bs.length ∧
    ∀ k (hk : k < bs.length), (sendArray bs)[k]? = some (Instr.send bs[k])) ∧
  sendString [] = [Instr.send 0] ∧
  (∀ text : List Byte, (∀ b ∈ text, b ≠ 0) →
    sendString text = text.map Instr.send ++ [Instr.send 0] ∧
    ∀ rest, sendString (text ++ 0 :: rest) = text.map Instr.send ++ [Instr.send 0]) ∧
  (∀ text : List Byte, (sendString text).count (Instr.send 0) = 1)

/-! ## Steps -/

/-- A step runs the instruction of the turn: the turn is taken off, and the host's word, or its held command,
or the PEND or READ of its RECV loop, is taken from the host (00_scope.md R5, R12, 30_encoding.md R46, R57). -/
def Obligations.StepRunsTheNextInstruction : Prop :=
  ∀ s : State, s.cfg.WellFormed →
    (∀ b, nextTurn s = .rx b → step s = exec (.rxEvent b) (takeTurn s)) ∧
    (nextTurn s = .txDone → step s = exec .txDone (takeTurn s)) ∧
    (∀ i, nextTurn s = .host → s.held = some i → step s = exec i { takeTurn s with held := none }) ∧
    (∀ w rest i, nextTurn s = .host → s.held = none → s.hostQueue = .word w :: rest → decodePort w = .ok i →
      step s = exec i { takeTurn s with hostQueue := rest }) ∧
    (∀ w rest e, nextTurn s = .host → s.held = none → s.hostQueue = .word w :: rest → decodePort w = .error e →
      step s = .next { takeTurn s with hostQueue := rest, responses := s.responses ++ [0xC0000000] }) ∧
    (∀ rest, nextTurn s = .host → s.held = none → s.hostQueue = .recv :: rest →
      step s = exec .pend { takeTurn s with hostQueue := .poll :: rest }) ∧
    (∀ rest, nextTurn s = .host → s.held = none → s.hostQueue = .poll :: rest → lastData s = 0 →
      step s = exec .pend { takeTurn s with hostQueue := .poll :: rest }) ∧
    (∀ rest, nextTurn s = .host → s.held = none → s.hostQueue = .poll :: rest → lastData s ≠ 0 →
      step s = exec .read { takeTurn s with hostQueue := rest }) ∧
    (nextTurn s = .host → s.held = none → s.hostQueue = [] → step s = .next (takeTurn s)) ∧
    (∀ t ts, s.script = t :: ts → nextTurn s = t ∧ takeTurn s = { s with script := ts }) ∧
    (s.script = [] →
      nextTurn s = Config.freeTurn s.draws ∧ takeTurn s = { s with draws := s.draws + 1 })

/-- A word placed for the next step is what that step runs, in the state it was placed in: an event word as
its line agent's, a command word as the host's (30_encoding.md R55). -/
def Obligations.PlacedWordIsRun : Prop :=
  ∀ (s : State) (i : Instr), s.cfg.WellFormed → i.wellFormed = true →
    step (s.withFetchWord 32 (encode i).toNat) = exec i (if i.isEvent then s else { s with held := none })

/-- 00_scope.md R7, 60_exceptions.md R80: an ill-formed configuration is refused and given no meaning. That every
step and every instruction is refused is the model's reading of it, log entry 5 (DEDUCED). -/
def Obligations.IllFormedConfigurationIsRefused : Prop :=
  ∀ s : State, s.cfg.fClk < 1 ∨ s.cfg.cap < 1 ∨ s.cfg.cap > 65535 →
    step s = .refused .illFormedConfig ∧ ∀ i, exec i s = .refused .illFormedConfig

/-- 70_reset_and_hazards.md R93 and the parameters of 00_scope.md R6: what power-on reset leaves, where the
spec gives a value. -/
def Obligations.ResetLeavesTheSpecifiedValues : Prop :=
  State.reset = State.powerOn { cap := 128, fClk := 16000000, ovfPolicy := .overwriteOldest } ∧
  ∀ c : Config,
    let s := State.powerOn c
    s.cfg = c ∧ s.div = 0x0000 ∧ s.u2x = false ∧ s.rxEn = false ∧ s.txEn = false ∧ s.rxcIe = false ∧
    s.txcIe = false ∧ s.txBusy = false ∧ s.wc = 0 ∧ s.rc = 0 ∧ s.cnt = 0 ∧ s.rxOvf = false ∧
    s.txWire = [] ∧ s.held = none ∧ s.responses = []

/-! ## INIT -/

/-- 40_init.md R58, R60: INIT answers ILLEGAL for a zero baud, in flight or not; is held while a byte is in
flight; and else writes the divisor, the mode flag and the four enables and nothing else. -/
def Obligations.InitConfigures : Prop :=
  ∀ (baud : BitVec 24) (hs : Bool) (s : State), s.cfg.WellFormed →
    (baud = 0 → exec (.init baud hs) s = .next { s with responses := s.responses ++ [0xC0000000] }) ∧
    (baud ≠ 0 → s.txBusy = true → exec (.init baud hs) s = .next { s with held := some (.init baud hs) }) ∧
    (baud ≠ 0 → s.txBusy = false → exec (.init baud hs) s = .next { s with
      div := divisor s.cfg.fClk baud hs, u2x := hs, rxEn := true, txEn := true, rxcIe := true, txcIe := true,
      responses := s.responses ++ [0x00000000] })

/-- 40_init.md R59: the divisor as an integer, its corners, and the source's scenario. -/
def Obligations.DivisorFormula : Prop :=
  (∀ (f : Nat) (baud : BitVec 24) (hs : Bool), 1 ≤ f → baud ≠ 0 →
    let m : Nat := if hs then 8 else 16
    let q : Nat := f / (m * baud.toNat)
    ((divisor f baud hs).toNat : Int) = ((q : Int) - 1) % 65536 ∧
    (f < m * baud.toNat → divisor f baud hs = 0xFFFF) ∧
    (m * baud.toNat ≤ f → f < 2 * (m * baud.toNat) → divisor f baud hs = 0) ∧
    (1 ≤ q → q ≤ 65536 → (divisor f baud hs).toNat + 1 = q)) ∧
  divisor 16000000 9600 false = 0x0067 ∧ divisor 16000000 1 false = 0x423F ∧
  divisor 16000000 1000000 false = 0 ∧ divisor 16000000 2000001 true = 0xFFFF

/-- 40_init.md R62, 20_memory.md R37: an INIT repeated with the same operands changes nothing further but
answers again. -/
def Obligations.ReInitIsIdempotent : Prop :=
  ∀ (baud : BitVec 24) (hs : Bool) (s t : State), baud ≠ 0 → s.txBusy = false →
    exec (.init baud hs) s = .next t →
    exec (.init baud hs) t = .next { t with responses := t.responses ++ [0x00000000] }

/-! ## Transmit -/

/-- 41_transmit.md R63: SEND answers NOT_INIT before any INIT, is held while a byte is in flight, and else
starts the transmission and answers at once. -/
def Obligations.SendStartsTransmission : Prop :=
  ∀ (b : Byte) (s : State), s.cfg.WellFormed →
    (s.txEn = false → exec (.send b) s = .next { s with responses := s.responses ++ [0x80000000] }) ∧
    (s.txEn = true → s.txBusy = true → exec (.send b) s = .next { s with held := some (.send b) }) ∧
    (s.txEn = true → s.txBusy = false → exec (.send b) s = .next { s with
      txBusy := true, txShift := b, responses := s.responses ++ [0x00000000] })

/-- 41_transmit.md R64: an enabled TX_DONE puts the byte in flight on the record and frees the transmitter. -/
def Obligations.TxDoneCompletesTheByte : Prop :=
  ∀ s : State, s.cfg.WellFormed → s.txBusy = true → s.txcIe = true →
    exec .txDone s = .next { s with txBusy := false, txWire := s.txWire ++ [s.txShift] }

/-- A TX_DONE that is not enabled never happens (41_transmit.md R64). MODEL'S CHOICE, log entry 7: a turn of
the TX line in such a state passes with nothing changed. -/
def Obligations.DisabledTxDoneTurnPasses : Prop :=
  ∀ s : State, s.cfg.WellFormed → ¬(s.txBusy = true ∧ s.txcIe = true) → exec .txDone s = .next s

/-- 41_transmit.md R65: what has departed, and then the byte in flight if there is one, is at every point the
sequence of accepted SENDs. -/
def Obligations.WireIsTheSentBytesInOrder : Prop :=
  ∀ (s : State) (h : History), Run s h →
    h.sentBytes = s.txWire ++ inFlight s ∧ s.txWire <+: h.sentBytes ∧
      h.sentBytes.length ≤ s.txWire.length + 1

/-- 10_state.md R28. -/
def Obligations.InFlightOnlyWithTransmitterOn : Prop :=
  ∀ (s : State) (h : History), Run s h →
    (s.txBusy = true → s.txEn = true ∧ s.txcIe = true) ∧ h.sentBytes.length - s.txWire.length ≤ 1

/-- 41_transmit.md R66, 00_scope.md R12: without a TX_DONE a held command stays held, however many turns the
host and the RX line take, and the host's stream, its responses and the line do not move. -/
def Obligations.HeldWithoutTxDone : Prop :=
  ∀ (turns rest : List Turn) (s : State) (i : Instr), Inv s → s.held = some i → s.txBusy = true →
    s.script = turns ++ rest → Turn.txDone ∉ turns →
    ∃ t, runSteps turns.length s = .next t ∧ t.held = some i ∧ t.txBusy = true ∧ t.txShift = s.txShift ∧
      t.hostQueue = s.hostQueue ∧ t.responses = s.responses ∧ t.txWire = s.txWire ∧ t.script = rest

/-- 00_scope.md R12, 60_exceptions.md R83: a TX_DONE lets the held command be accepted at the host's next
turn, whatever bytes arrive before and between. -/
def Obligations.HeldAcceptedAfterTxDone : Prop :=
  ∀ (before between : List Byte) (rest : List Turn) (s : State) (i : Instr), Inv s → s.held = some i →
    s.txBusy = true → s.script = before.map Turn.rx ++ Turn.txDone :: between.map Turn.rx ++ Turn.host :: rest →
    ∃ t, runSteps (before.length + between.length + 2) s = .next t ∧ t.held = none ∧
      t.responses = s.responses ++ [0x00000000] ∧ t.txWire = s.txWire ++ [s.txShift] ∧
      t.hostQueue = s.hostQueue ∧ t.script = rest ∧
      (∀ b, i = Instr.send b → t.txBusy = true ∧ t.txShift = b) ∧
      (∀ baud hs, i = .init baud hs →
        t.txBusy = false ∧ t.div = divisor s.cfg.fClk baud hs ∧ t.u2x = hs)

/-- 70_reset_and_hazards.md R103: under TX_COMPLETES a byte in flight departs, after finitely many steps, and
frees the transmitter. -/
def Obligations.InFlightDepartsUnderTxCompletes : Prop :=
  ∀ s : State, Inv s → s.txBusy = true → TxCompletes s →
    ∃ n t, runSteps n s = .next t ∧ t.txBusy = false ∧ t.txWire = s.txWire ++ [s.txShift]

/-- 41_transmit.md R67, 70_reset_and_hazards.md R104: an idle transmitter, given the SENDs of `SENDARR` or of
`SENDSTR` and turns in which each is accepted and followed by its TX_DONE, appends exactly those bytes to the
record, and the run ends. Any turns but a TX_DONE may lie between a SEND's host turn and its TX_DONE, so the
next SEND may be presented early and held; any turns but the host's may lie between that TX_DONE and the next
accepted SEND. The end is the first end point of R104, whatever bytes arrive after it. -/
def Obligations.SendArrayAndStringTransmitExactly : Prop :=
  ∀ (before : List Turn) (rounds : List (List Turn × List Turn)) (rest : List Turn) (s : State),
    Inv s → s.txEn = true → s.txBusy = false → s.held = none → Turn.host ∉ before →
    (∀ r ∈ rounds, Turn.txDone ∉ r.1 ∧ Turn.host ∉ r.2) →
    s.script = before ++ (rounds.flatMap fun r => Turn.host :: r.1 ++ Turn.txDone :: r.2) ++ rest →
    (∀ bs : List Byte, bs.length = rounds.length → s.hostQueue = itemsOf (sendArray bs) →
      ∃ n t, EndsAt s n t ∧ t.txWire = s.txWire ++ bs ∧
        t.responses = s.responses ++ List.replicate bs.length 0x00000000 ∧
        ∃ turns : List Turn, t.script = turns ++ rest ∧ Turn.host ∉ turns) ∧
    (∀ text : List Byte, (text.takeWhile (· != 0)).length + 1 = rounds.length →
      s.hostQueue = itemsOf (sendString text) →
      ∃ n t, EndsAt s n t ∧ t.txWire = s.txWire ++ text.takeWhile (· != 0) ++ [0] ∧
        ∃ turns : List Turn, t.script = turns ++ rest ∧ Turn.host ∉ turns)

/-- 41_transmit.md R67, of every state of every run: whatever turns are taken, whatever program follows the
expansion and however much of it has been presented, the SENDs of a `SENDARR` or of a `SENDSTR` append exactly
their bytes to the record (`AppendsExactly`). -/
def Obligations.ExpansionsDepartInEveryRun : Prop :=
  ∀ (following : List HostItem) (n : Nat) (s t : State), s.txEn = true → s.txBusy = false → s.held = none →
    runSteps n s = .next t →
    (∀ bs : List Byte, s.hostQueue = itemsOf (sendArray bs) ++ following → AppendsExactly bs following s t) ∧
    (s.hostQueue = itemsOf (sendString []) ++ following → AppendsExactly [0x00] following s t) ∧
    (∀ text : List Byte, s.hostQueue = itemsOf (sendString text) ++ following →
      AppendsExactly (text.takeWhile (· != 0) ++ [0x00]) following s t)

/-- 70_reset_and_hazards.md R103, R104: under TX_COMPLETES, and with a host that takes its next step whenever it has
one, a program of command words ends, in the sense of R104. A program with a `RECV` loop is left out: R103 gives
the RX line no fairness, so such a loop need not end. -/
def Obligations.HostProgramEnds : Prop :=
  ∀ s : State, Inv s → (∀ x ∈ s.hostQueue, ∃ w, x = .word w) → TxCompletes s → HostProceeds s →
    ∃ n t, EndsAt s n t

/-- 70_reset_and_hazards.md R104: a run has at most one final observation; and after the end only a RX_EVENT changes
anything of the block: what a step leaves is again ended, with the same responses, the same record and the same
configuration, and a step that changes the observation ran a RX_EVENT. -/
def Obligations.EndOfARun : Prop :=
  (∀ (s : State) (o o' : Observation), FinalObservation s o → FinalObservation s o' → o = o') ∧
  ∀ s t : State, RunEnded s → step s = .next t →
    RunEnded t ∧ t.responses = s.responses ∧ t.txWire = s.txWire ∧ t.txShift = s.txShift ∧ t.div = s.div ∧
      t.u2x = s.u2x ∧ t.rxEn = s.rxEn ∧ t.txEn = s.txEn ∧ t.rxcIe = s.rxcIe ∧ t.txcIe = s.txcIe ∧
      (t.observation ≠ s.observation → ∃ b, issued s = some (.rxEvent b))

/-! ## Receive -/

/-- 42_receive.md R68: with the receiver or its notification path off, the byte is lost. -/
def Obligations.RxEventLostWhenDisabled : Prop :=
  ∀ (b : Byte) (s : State), s.cfg.WellFormed → s.rxEn = false ∨ s.rxcIe = false →
    exec (.rxEvent b) s = .next s

/-- 42_receive.md R68: an enabled RX_EVENT on a buffer that is not full stores its byte at the write cursor,
and no other slot, register or flag changes. -/
def Obligations.RxEventStores : Prop :=
  ∀ (b : Byte) (s : State), s.cfg.WellFormed → s.rxEn = true → s.rxcIe = true → s.cnt.toNat < s.cfg.cap →
    s.wc < s.cfg.cap →
    ∃ m, exec (.rxEvent b) s =
        .next { s with buf := m, cnt := s.cnt + 1, wc := (s.wc + 1) % s.cfg.cap } ∧
      ∀ i, m.read i = if i = s.wc then some b else s.buf.read i

/-- 42_receive.md R69: an enabled RX_EVENT on a full buffer sets the sticky flag under every policy, and does
with the data what the policy says. -/
def Obligations.RxEventOverflows : Prop :=
  ∀ (b : Byte) (s : State), s.cfg.WellFormed → s.rxEn = true → s.rxcIe = true → s.cfg.cap ≤ s.cnt.toNat →
    (s.cfg.ovfPolicy = .overwriteOldest → s.wc < s.cfg.cap → ∃ m,
      exec (.rxEvent b) s = .next { s with
        rxOvf := true, buf := m, wc := (s.wc + 1) % s.cfg.cap, rc := (s.rc + 1) % s.cfg.cap } ∧
      ∀ i, m.read i = if i = s.wc then some b else s.buf.read i) ∧
    (s.cfg.ovfPolicy = .dropNewest → exec (.rxEvent b) s = .next { s with rxOvf := true }) ∧
    (s.cfg.ovfPolicy = .sourceCompat → s.wc < s.cfg.cap → ∃ m,
      exec (.rxEvent b) s = .next { s with
        rxOvf := true, buf := m, cnt := s.cnt + 1, wc := (s.wc + 1) % s.cfg.cap } ∧
      ∀ i, m.read i = if i = s.wc then some b else s.buf.read i)

/-- 42_receive.md R70: PEND answers the count and changes nothing; it never holds. -/
def Obligations.PendAnswersTheCount : Prop :=
  ∀ s : State, s.cfg.WellFormed →
    exec .pend s = .next { s with responses := s.responses ++ [s.cnt.setWidth 32] }

/-- 42_receive.md R71: READ answers EMPTY on underflow and changes nothing, and else answers the byte at the
read cursor and consumes it. A slot no RX_EVENT has written (which no run reads) gives a free value. -/
def Obligations.ReadConsumesTheByte : Prop :=
  ∀ s : State, s.cfg.WellFormed →
    (s.cnt = 0 → exec .read s = .next { s with responses := s.responses ++ [0x40000000] }) ∧
    (s.cnt ≠ 0 → s.rc < s.cfg.cap → exec .read s = .next { s with
      rc := (s.rc + 1) % s.cfg.cap, cnt := s.cnt - 1,
      responses := s.responses ++ [((s.buf.read s.rc).getD (Config.resetSlot s.rc)).setWidth 32] })

/-- MODEL'S CHOICE, log entry 4, for states no run reaches: a cursor at a slot that does not exist faults, for
READ, for a RX_EVENT on a buffer that is not full, and for one on a full buffer under the two policies that then
store. -/
def Obligations.SlotOutOfRangeFaults : Prop :=
  ∀ (b : Byte) (s : State), s.cfg.WellFormed →
    (s.cfg.cap ≤ s.rc → s.cnt ≠ 0 → exec .read s = .fault (.slotOutOfRange s.rc)) ∧
    (s.cfg.cap ≤ s.wc → s.rxEn = true → s.rxcIe = true →
      s.cnt.toNat < s.cfg.cap ∨ s.cfg.ovfPolicy = .overwriteOldest ∨ s.cfg.ovfPolicy = .sourceCompat →
      exec (.rxEvent b) s = .fault (.slotOutOfRange s.wc))

/-- 10_state.md R30: slot `i` is unread exactly when `(i - rc) mod CAP < cnt`, the unread bytes form a queue,
oldest first, and READ answers its head; RX_EVENT appends to it, and under OVERWRITE_OLDEST the oldest is lost
to the newest. -/
def Obligations.UnreadBytesFormAQueue : Prop :=
  ∀ (s t : State), Inv s → s.cfg.ovfPolicy ≠ .sourceCompat →
    (∀ i < s.cfg.cap, ((i : Int) - s.rc) % s.cfg.cap < s.cnt.toNat ↔
      ∃ k < s.cnt.toNat, i = (s.rc + k) % s.cfg.cap) ∧
    (exec .read s = .next t → s.cnt ≠ 0 → ∃ b, unread s = b :: unread t ∧
      t.responses = s.responses ++ [b.setWidth 32]) ∧
    (∀ b, exec (.rxEvent b) s = .next t → s.rxEn = true →
      unread t = if s.cnt.toNat < s.cfg.cap then unread s ++ [b]
        else if s.cfg.ovfPolicy = .overwriteOldest then (unread s).tail ++ [b] else unread s)

/-- 42_receive.md R72: in a run with no overflow, the bytes read and then the bytes unread are the bytes
received, in arrival order, none lost, duplicated or reordered, under every policy. -/
def Obligations.FifoWithoutOverflow : Prop :=
  ∀ (s : State) (h : History), Run s h → h.overflowed = false →
    h.readBytes ++ unread s = h.rxBytes ∧ s.cnt.toNat + h.readBytes.length = h.rxBytes.length

/-- 42_receive.md R72: K bytes (K up to the capacity) into an empty buffer, then PEND, K READs and PEND: the
answers are K, the bytes in order, and 0. -/
def Obligations.ReceiveThenDrain : Prop :=
  ∀ (xs : List Byte) (rest : List Turn) (s : State), s.cfg.WellFormed → s.rxEn = true → s.rxcIe = true →
    s.cnt = 0 → s.wc < s.cfg.cap → s.rc = s.wc → xs.length ≤ s.cfg.cap → s.held = none →
    s.hostQueue = HostItem.word (encode .pend) :: List.replicate xs.length (HostItem.word (encode .read)) ++
      [HostItem.word (encode .pend)] →
    s.script = xs.map Turn.rx ++ List.replicate (xs.length + 2) Turn.host ++ rest →
    ∃ t, runSteps (2 * xs.length + 2) s = .next t ∧ t.cnt = 0 ∧
      t.responses = s.responses ++ BitVec.ofNat 32 xs.length :: xs.map (·.setWidth 32) ++ [0x00000000]

/-- 42_receive.md R73: one byte more than the capacity, with no READ between, and then reading until EMPTY: the
outcome of each policy (SOURCE_COMPAT with a capacity that its count can exceed). The table of the rule is the
case `CAP = 128`. -/
def Obligations.OverflowOutcomePerPolicy : Prop :=
  ∀ (xs : List Byte) (rest : List Turn) (s : State), s.cfg.WellFormed → s.rxEn = true → s.rxcIe = true →
    s.cnt = 0 → s.wc = 0 → s.rc = 0 → s.held = none → xs.length = s.cfg.cap + 1 →
    (s.cfg.ovfPolicy = .sourceCompat → s.cfg.cap < 65535) →
    let reads := match s.cfg.ovfPolicy with
      | .overwriteOldest => xs.tail
      | .dropNewest => xs.take s.cfg.cap
      | .sourceCompat => xs.drop s.cfg.cap ++ xs.tail
    s.hostQueue = HostItem.word (encode .pend) :: List.replicate (reads.length + 1) (HostItem.word (encode .read)) →
    s.script = xs.map Turn.rx ++ List.replicate (reads.length + 2) Turn.host ++ rest →
    ∃ t u, runSteps (s.cfg.cap + 1) s = .next t ∧ runSteps (reads.length + 2) t = .next u ∧
      t.cnt.toNat = (if s.cfg.ovfPolicy = .sourceCompat then s.cfg.cap + 1 else s.cfg.cap) ∧
      t.rxOvf = true ∧
      t.wc = (if s.cfg.ovfPolicy = .dropNewest then 0 else 1 % s.cfg.cap) ∧
      t.rc = (if s.cfg.ovfPolicy = .overwriteOldest then 1 % s.cfg.cap else 0) ∧
      u.responses = s.responses ++ t.cnt.setWidth 32 :: reads.map (·.setWidth 32) ++ [0x40000000]

/-- 10_state.md R29: the count and the cursors, per policy, in every run. -/
def Obligations.CountAndCursorsInEveryRun : Prop :=
  ∀ (s : State) (h : History), Run s h →
    (s.cfg.ovfPolicy ≠ .sourceCompat →
      0 ≤ s.cnt.toNat ∧ s.cnt.toNat ≤ s.cfg.cap ∧ s.wc = (s.rc + s.cnt.toNat) % s.cfg.cap) ∧
    (s.cfg.ovfPolicy = .sourceCompat →
      (s.cnt.toNat : Int) = ((h.rxBytes.length : Int) - h.readBytes.length) % 65536 ∧
      s.wc = h.rxBytes.length % s.cfg.cap ∧ s.rc = h.readBytes.length % s.cfg.cap)

/-- 20_memory.md R40: in every run, under every policy, a READ that answers OK answers a byte that a RX_EVENT
wrote. -/
def Obligations.ReadsReturnWrittenSlots : Prop :=
  ∀ (s : State) (h : History), Run s h → s.cnt ≠ 0 →
    ∃ b, s.buf.read s.rc = some b ∧
      exec .read s = .next { s with
        rc := (s.rc + 1) % s.cfg.cap, cnt := s.cnt - 1, responses := s.responses ++ [b.setWidth 32] }

/-- 20_memory.md R43(c): under the two policies that keep the count, once `n` bytes are pending each of the
next `n` READs answers OK, whatever steps fall between. -/
def Obligations.PendingReadsSucceed : Prop :=
  ∀ (n : Nat) (s t : State), Inv s → s.cfg.ovfPolicy ≠ .sourceCompat → runSteps n s = .next t →
    s.cnt.toNat ≤ t.cnt.toNat + readsIssued n s ∧
    (readsIssued n s < s.cnt.toNat → ∃ b u, exec .read t = .next u ∧
      u.responses = t.responses ++ [BitVec.setWidth 32 (b : Byte)])

/-- 30_encoding.md R57, program P5 of 95_test_vectors.md: under the two policies that keep the count, the READ
of a RECV loop never answers EMPTY: the loop stays sound at every step, and its READ answers OK. -/
def Obligations.RecvNeverReadsEmpty : Prop :=
  ∀ s t : State, Inv s → s.cfg.ovfPolicy ≠ .sourceCompat → RecvSound s → step s = .next t →
    RecvSound t ∧
    (s.hostQueue.head? = some .poll → issued s = some .read →
      ∃ b : Byte, t.responses = s.responses ++ [b.setWidth 32] ∧ t.hostQueue = s.hostQueue.tail)

/-! ## Status and control -/

/-- 43_control.md R76: STAT answers each field in its place and changes nothing. -/
def Obligations.StatReportsEveryField : Prop :=
  ∀ s : State, s.cfg.WellFormed →
    ∃ r : Word, exec .stat s = .next { s with responses := s.responses ++ [r] } ∧
      r.extractLsb' 24 8 = 0 ∧ r.extractLsb' 16 8 = s.div.extractLsb' 8 8 ∧
      r.extractLsb' 8 8 = s.div.extractLsb' 0 8 ∧ r.getLsbD 7 = false ∧ r.getLsbD 6 = s.u2x ∧
      r.getLsbD 5 = s.txcIe ∧ r.getLsbD 4 = s.rxcIe ∧ r.getLsbD 3 = s.txEn ∧ r.getLsbD 2 = s.rxEn ∧
      r.getLsbD 1 = s.rxOvf ∧ r.getLsbD 0 = s.txBusy

/-- 43_control.md R77: CLROVF clears the flag and nothing else, also before INIT; it is idempotent; and an
overflow right after it sets the flag again. -/
def Obligations.ClrovfClearsOnlyTheFlag : Prop :=
  ∀ s : State, s.cfg.WellFormed →
    ∃ t, exec .clrovf s = .next t ∧ t = { s with rxOvf := false, responses := s.responses ++ [0x00000000] } ∧
      exec .clrovf t = .next { t with responses := t.responses ++ [0x00000000] } ∧
      (s.rxEn = true → s.rxcIe = true → s.cfg.cap ≤ s.cnt.toNat → s.wc < s.cfg.cap →
        ∀ b, ∃ u, exec (.rxEvent b) t = .next u ∧ u.rxOvf = true)

/-- 10_state.md R27: the flag is set exactly by an enabled RX_EVENT on a full buffer and cleared only by
CLROVF. -/
def Obligations.StickyOverflowFlag : Prop :=
  ∀ s t : State, step s = .next t →
    (s.rxOvf = true → t.rxOvf = false → issued s = some .clrovf) ∧
    (s.rxOvf = false → (t.rxOvf = true ↔
      (∃ b, issued s = some (.rxEvent b)) ∧ s.rxEn = true ∧ s.rxcIe = true ∧ s.cfg.cap ≤ s.cnt.toNat))

/-! ## The whole machine -/

/-- 60_exceptions.md R78, 30_encoding.md R50: an answer that is not OK changes no field, carries data 0, and
has the cause the rule names. -/
def Obligations.NonOkAnswersChangeNothing : Prop :=
  ∀ (i : Instr) (s t : State) (r : Word), exec i s = .next t → t.responses = s.responses ++ [r] →
    r.extractLsb' 30 2 ≠ 0b00#2 →
    t = { s with responses := s.responses ++ [r] } ∧ r.extractLsb' 0 24 = 0 ∧
      (r.extractLsb' 30 2 = 0b01#2 → i = .read ∧ s.cnt = 0) ∧
      (r.extractLsb' 30 2 = 0b10#2 → (∃ b, i = .send b) ∧ s.txEn = false) ∧
      (r.extractLsb' 30 2 = 0b11#2 → ∃ hs, i = .init 0 hs)

/-- 30_encoding.md R46, R55, 00_scope.md R12: a command is held, which only a SEND or an INIT is and only
while a byte is in flight, or answers exactly one word; an event answers none. -/
def Obligations.OneAnswerPerCommand : Prop :=
  ∀ (i : Instr) (s t : State), exec i s = .next t →
    (i.isEvent = true → t.responses = s.responses ∧ t.held = s.held) ∧
    (i.isEvent = false →
      (t = { s with held := some i } ∧ s.txBusy = true ∧
        ((∃ b, i = .send b) ∨ ∃ baud hs, i = .init baud hs)) ∨
      (t.held = s.held ∧ ∃ r : Word, t.responses = s.responses ++ [r] ∧ r.extractLsb' 24 6 = 0))

/-- 10_state.md R17, the column "written by", with R20, R21, R25: a field changes only by the instructions the
table names, and the parameters and the agents' own fields by none. -/
def Obligations.OnlyTheNamedWritersWrite : Prop :=
  ∀ (i : Instr) (s t : State), exec i s = .next t →
    (t.cfg = s.cfg ∧ t.hostQueue = s.hostQueue ∧ t.script = s.script ∧ t.draws = s.draws) ∧
    (t.div ≠ s.div ∨ t.u2x ≠ s.u2x ∨ t.rxEn ≠ s.rxEn ∨ t.txEn ≠ s.txEn ∨ t.rxcIe ≠ s.rxcIe ∨
      t.txcIe ≠ s.txcIe → ∃ baud hs, i = .init baud hs) ∧
    (t.rxEn ≠ s.rxEn → t.rxEn = true) ∧ (t.txEn ≠ s.txEn → t.txEn = true) ∧
    (t.rxcIe ≠ s.rxcIe → t.rxcIe = true) ∧ (t.txcIe ≠ s.txcIe → t.txcIe = true) ∧
    (t.txBusy ≠ s.txBusy → if t.txBusy then ∃ b, i = .send b else i = .txDone) ∧
    (t.txShift ≠ s.txShift → ∃ b, i = .send b) ∧
    (t.buf ≠ s.buf ∨ t.wc ≠ s.wc → ∃ b, i = .rxEvent b) ∧
    (t.rc ≠ s.rc → i = .read ∨
      (∃ b, i = .rxEvent b) ∧ s.cfg.ovfPolicy = .overwriteOldest ∧ s.cfg.cap ≤ s.cnt.toNat) ∧
    (t.cnt ≠ s.cnt → i = .read ∨ ∃ b, i = .rxEvent b) ∧
    (t.rxOvf ≠ s.rxOvf → if t.rxOvf then ∃ b, i = .rxEvent b else i = .clrovf) ∧
    (t.txWire ≠ s.txWire → i = .txDone)

/-- 20_memory.md R33: the only slot an instruction writes is the one at the write cursor, by a RX_EVENT and
with its byte; every other slot reads as before. -/
def Obligations.OnlyTheWriteCursorSlotChanges : Prop :=
  ∀ (i : Instr) (s t : State), exec i s = .next t → ∀ j, t.buf.read j ≠ s.buf.read j →
    j = s.wc ∧ ∃ b, i = .rxEvent b ∧ t.buf.read j = some b ∧ s.rxEn = true ∧ s.rxcIe = true

/-- The machine's invariant holds at power-on of every legal configuration, with any program, any turns and
any value of what reset leaves unspecified; and at `State.reset`. -/
def Obligations.PowerOnMeetsTheInvariant : Prop :=
  Inv State.reset ∧
  ∀ (c : Config) (program : List HostItem) (turns : List Turn) (shift : Byte) (n : Nat), c.WellFormed →
    Inv { State.powerOn c with hostQueue := program, script := turns, txShift := shift, draws := n }

/-- Every step keeps the invariant: the legal configuration, the cursors below the capacity, the canonical
buffer, 10_state.md R28 and R29, the written slots of 20_memory.md R40, the enables of R20, the untouched block
before INIT of 70_reset_and_hazards.md R95, and the held command of 00_scope.md R12. -/
def Obligations.StepKeepsTheInvariant : Prop :=
  ∀ s t : State, Inv s → step s = .next t → Inv t

/-- 60_exceptions.md R80: in a state that meets the invariant, whatever turn is next and whatever word the
host presents, the step answers a next state: no fault, no refusal. -/
def Obligations.NeverFaultsNorRefuses : Prop :=
  ∀ s : State, Inv s → (∃ t, step s = .next t) ∧ ∀ i, ∃ t, exec i s = .next t

/-- 70_reset_and_hazards.md R95: before the first accepted INIT, in every run: SEND answers NOT_INIT, PEND 0,
READ EMPTY, STAT all zeros, and a byte that arrives is lost. -/
def Obligations.BeforeInit : Prop :=
  ∀ (s : State) (h : History), Run s h → s.txEn = false →
    (∀ b, exec (.send b) s = .next { s with responses := s.responses ++ [0x80000000] }) ∧
    exec .pend s = .next { s with responses := s.responses ++ [0x00000000] } ∧
    exec .read s = .next { s with responses := s.responses ++ [0x40000000] } ∧
    exec .stat s = .next { s with responses := s.responses ++ [0x00000000] } ∧
    (∀ b, exec (.rxEvent b) s = .next s) ∧ s.txWire = [] ∧ h.sentBytes = [] ∧ h.rxBytes = []

/-- 10_state.md R22, 70_reset_and_hazards.md R94: while no byte is in flight the content of `tx_shift` is not
observable: a step from two states that differ only there ends in two states that differ at most there, and
not at all once a byte is in flight. -/
def Obligations.IdleShiftIsUnobservable : Prop :=
  ∀ (s t : State) (b : Byte), s.txBusy = false → step s = .next t →
    ∃ b', step { s with txShift := b } = .next { t with txShift := b' } ∧
      (t.txBusy = true → b' = t.txShift)

/-- 20_memory.md R37, 43_control.md R76, 42_receive.md R70: PEND and STAT, repeated while no other agent
steps, give the same answer again. -/
def Obligations.RepeatedReportsAgree : Prop :=
  ∀ (i : Instr) (s t u : State), i = .pend ∨ i = .stat → exec i s = .next t → exec i t = .next u →
    ∃ r : Word, t = { s with responses := s.responses ++ [r] } ∧
      u = { s with responses := s.responses ++ [r, r] }

/-- Follows from 41_transmit.md R64 and 42_receive.md R68, R69 (neither event writes a field of 10_state.md R17 that
the other reads or writes): a RX_EVENT and a TX_DONE give the same state in either order. -/
def Obligations.LineEventsCommute : Prop :=
  ∀ (b : Byte) (s t u : State), exec (.rxEvent b) s = .next t → exec .txDone t = .next u →
    ∃ t', exec .txDone s = .next t' ∧ exec (.rxEvent b) t' = .next u
end

