-- ==== Sys2Proof/Laws/Memory.lean ====
section
/-! SUPPORT. The laws of the ring buffer's data: read after write, and the canonical form. -/

namespace Sys2Proof.Machine

@[simp] theorem Memory.read_nil (i : Nat) : Memory.read [] i = none := rfl

/-- A write gives its byte at its slot and leaves every other slot alone. -/
theorem Memory.read_write (m : Memory) (i j : Nat) (b : Byte) :
    (m.write i b).read j = if j = i then some b else m.read j := by
  induction m with
  | nil => simp [Memory.write, Memory.read, eq_comm]
  | cons x m ih =>
    obtain ⟨k, c⟩ := x
    simp only [Memory.write]
    by_cases h1 : i < k
    · rw [if_pos h1]
      simp [Memory.read, eq_comm]
    · rw [if_neg h1]
      by_cases h2 : i = k
      · subst h2
        by_cases hj : i = j <;> simp [Memory.read, hj, eq_comm]
      · rw [if_neg h2]
        simp only [Memory.read, ih]
        by_cases hk : k = j
        · rw [if_pos hk, if_pos hk, if_neg (by omega)]
        · rw [if_neg hk, if_neg hk]

@[simp] theorem Memory.read_write_same (m : Memory) (i : Nat) (b : Byte) : (m.write i b).read i = some b := by
  simp [Memory.read_write]

theorem Memory.read_write_other (m : Memory) {i j : Nat} (b : Byte) (h : j ≠ i) :
    (m.write i b).read j = m.read j := by
  simp [Memory.read_write, h]

/-- What a slot reads as after a write. -/
theorem Memory.slot_write (m : Memory) (i j : Nat) (b : Byte) :
    (m.write i b).slot j = if j = i then b else m.slot j := by
  simp only [Memory.slot, Memory.read_write]
  split_ifs <;> rfl

theorem Memory.mem_write {m : Memory} {i : Nat} {b : Byte} {c : Host.Cell} (h : c ∈ m.write i b) :
    c = (i, b) ∨ c ∈ m := by
  induction m with
  | nil => simpa [Memory.write] using h
  | cons x m ih =>
    simp only [Memory.write] at h
    split_ifs at h <;> simp only [List.mem_cons] at h ⊢ <;> tauto

/-- A write keeps the canonical form. -/
theorem Memory.write_wf {m : Memory} (h : m.wf) (i : Nat) (b : Byte) : (m.write i b).wf := by
  induction m with
  | nil => simp [Memory.write, Memory.wf]
  | cons x m ih =>
    obtain ⟨k, c⟩ := x
    obtain ⟨hx, hm⟩ := List.pairwise_cons.mp h
    simp only [Memory.write]
    split_ifs with h1 h2
    · refine List.pairwise_cons.mpr ⟨fun y hy => ?_, h⟩
      rcases List.mem_cons.mp hy with rfl | hy
      · exact h1
      · exact lt_trans h1 (hx y hy)
    · exact List.pairwise_cons.mpr ⟨fun y hy => h2 ▸ hx y hy, hm⟩
    · refine List.pairwise_cons.mpr ⟨fun y hy => ?_, ih hm⟩
      rcases Memory.mem_write hy with rfl | hy
      · exact Nat.lt_of_le_of_ne (Nat.not_lt.mp h1) (Ne.symm h2)
      · exact hx y hy

/-- A write below the capacity keeps every listed index below it. -/
theorem Memory.write_below {m : Memory} {cap i : Nat} (h : m.below cap) (hi : i < cap) (b : Byte) :
    (m.write i b).below cap := by
  intro c hc
  rcases Memory.mem_write hc with rfl | hc
  · exact hi
  · exact h c hc

theorem Memory.read_eq_none_of_lt {m : Memory} {i : Nat} (h : ∀ c ∈ m, i < c.1) : m.read i = none := by
  induction m with
  | nil => rfl
  | cons x m ih =>
    have hx := h x (by simp)
    simp only [Memory.read]
    rw [if_neg (by omega)]
    exact ih fun c hc => h c (by simp [hc])

/-- In canonical form, memories that read alike are equal data. -/
theorem Memory.ext_of_wf : ∀ {m n : Memory}, m.wf → n.wf → (∀ i, m.read i = n.read i) → m = n
  | [], [], _, _, _ => rfl
  | [], (k, c) :: n, _, _, h => by have := h k; simp [Memory.read] at this
  | (k, c) :: m, [], _, _, h => by have := h k; simp [Memory.read] at this
  | (k, c) :: m, (l, d) :: n, hm, hn, h => by
    obtain ⟨hk, hm'⟩ := List.pairwise_cons.mp hm
    obtain ⟨hl, hn'⟩ := List.pairwise_cons.mp hn
    have below {k : Nat} {m : Memory} (hk : ∀ y ∈ m, k < y.1) {i : Nat} (hi : i ≤ k) : m.read i = none :=
      Memory.read_eq_none_of_lt fun y hy => lt_of_le_of_lt hi (hk y hy)
    have key : k = l := by
      rcases Nat.lt_trichotomy k l with hlt | heq | hgt
      · have := h k
        simp [Memory.read, Nat.ne_of_gt hlt, below hl hlt.le] at this
      · exact heq
      · have := h l
        simp [Memory.read, Nat.ne_of_gt hgt, below hk hgt.le] at this
    subst key
    have hc : c = d := by simpa [Memory.read] using h k
    subst hc
    congr 1
    refine Memory.ext_of_wf hm' hn' fun i => ?_
    by_cases hi : k = i
    · subst hi; rw [below hk le_rfl, below hl le_rfl]
    · simpa [Memory.read, hi] using h i

end Sys2Proof.Machine
end

