-- ==== Sys2Proof/Laws/State.lean ====
section
/-! SUPPORT. One lemma per field per update of the state, true by unfolding the update once. -/

namespace Sys2Proof.Machine

section Respond

variable (st : Status) (d : BitVec 24) (s : State)

@[simp] theorem respond_cfg : (respond st d s).cfg = s.cfg := rfl
@[simp] theorem respond_div : (respond st d s).div = s.div := rfl
@[simp] theorem respond_u2x : (respond st d s).u2x = s.u2x := rfl
@[simp] theorem respond_rxEn : (respond st d s).rxEn = s.rxEn := rfl
@[simp] theorem respond_txEn : (respond st d s).txEn = s.txEn := rfl
@[simp] theorem respond_rxcIe : (respond st d s).rxcIe = s.rxcIe := rfl
@[simp] theorem respond_txcIe : (respond st d s).txcIe = s.txcIe := rfl
@[simp] theorem respond_txBusy : (respond st d s).txBusy = s.txBusy := rfl
@[simp] theorem respond_txShift : (respond st d s).txShift = s.txShift := rfl
@[simp] theorem respond_buf : (respond st d s).buf = s.buf := rfl
@[simp] theorem respond_wc : (respond st d s).wc = s.wc := rfl
@[simp] theorem respond_rc : (respond st d s).rc = s.rc := rfl
@[simp] theorem respond_cnt : (respond st d s).cnt = s.cnt := rfl
@[simp] theorem respond_rxOvf : (respond st d s).rxOvf = s.rxOvf := rfl
@[simp] theorem respond_txWire : (respond st d s).txWire = s.txWire := rfl
@[simp] theorem respond_responses : (respond st d s).responses = s.responses ++ [responseWord st d] := rfl
@[simp] theorem respond_held : (respond st d s).held = s.held := rfl
@[simp] theorem respond_hostQueue : (respond st d s).hostQueue = s.hostQueue := rfl
@[simp] theorem respond_script : (respond st d s).script = s.script := rfl
@[simp] theorem respond_draws : (respond st d s).draws = s.draws := rfl

end Respond

section Raise

variable (st : Status) (s : State)

@[simp] theorem raise_cfg : (raise st s).cfg = s.cfg := rfl
@[simp] theorem raise_div : (raise st s).div = s.div := rfl
@[simp] theorem raise_u2x : (raise st s).u2x = s.u2x := rfl
@[simp] theorem raise_rxEn : (raise st s).rxEn = s.rxEn := rfl
@[simp] theorem raise_txEn : (raise st s).txEn = s.txEn := rfl
@[simp] theorem raise_rxcIe : (raise st s).rxcIe = s.rxcIe := rfl
@[simp] theorem raise_txcIe : (raise st s).txcIe = s.txcIe := rfl
@[simp] theorem raise_txBusy : (raise st s).txBusy = s.txBusy := rfl
@[simp] theorem raise_txShift : (raise st s).txShift = s.txShift := rfl
@[simp] theorem raise_buf : (raise st s).buf = s.buf := rfl
@[simp] theorem raise_wc : (raise st s).wc = s.wc := rfl
@[simp] theorem raise_rc : (raise st s).rc = s.rc := rfl
@[simp] theorem raise_cnt : (raise st s).cnt = s.cnt := rfl
@[simp] theorem raise_rxOvf : (raise st s).rxOvf = s.rxOvf := rfl
@[simp] theorem raise_txWire : (raise st s).txWire = s.txWire := rfl
@[simp] theorem raise_responses : (raise st s).responses = s.responses ++ [responseWord st 0] := rfl
@[simp] theorem raise_held : (raise st s).held = s.held := rfl
@[simp] theorem raise_hostQueue : (raise st s).hostQueue = s.hostQueue := rfl
@[simp] theorem raise_script : (raise st s).script = s.script := rfl
@[simp] theorem raise_draws : (raise st s).draws = s.draws := rfl

end Raise

section Hold

variable (i : Instr) (s : State)

@[simp] theorem hold_cfg : (hold i s).cfg = s.cfg := rfl
@[simp] theorem hold_div : (hold i s).div = s.div := rfl
@[simp] theorem hold_u2x : (hold i s).u2x = s.u2x := rfl
@[simp] theorem hold_rxEn : (hold i s).rxEn = s.rxEn := rfl
@[simp] theorem hold_txEn : (hold i s).txEn = s.txEn := rfl
@[simp] theorem hold_rxcIe : (hold i s).rxcIe = s.rxcIe := rfl
@[simp] theorem hold_txcIe : (hold i s).txcIe = s.txcIe := rfl
@[simp] theorem hold_txBusy : (hold i s).txBusy = s.txBusy := rfl
@[simp] theorem hold_txShift : (hold i s).txShift = s.txShift := rfl
@[simp] theorem hold_buf : (hold i s).buf = s.buf := rfl
@[simp] theorem hold_wc : (hold i s).wc = s.wc := rfl
@[simp] theorem hold_rc : (hold i s).rc = s.rc := rfl
@[simp] theorem hold_cnt : (hold i s).cnt = s.cnt := rfl
@[simp] theorem hold_rxOvf : (hold i s).rxOvf = s.rxOvf := rfl
@[simp] theorem hold_txWire : (hold i s).txWire = s.txWire := rfl
@[simp] theorem hold_responses : (hold i s).responses = s.responses := rfl
@[simp] theorem hold_held : (hold i s).held = some i := rfl
@[simp] theorem hold_hostQueue : (hold i s).hostQueue = s.hostQueue := rfl
@[simp] theorem hold_script : (hold i s).script = s.script := rfl
@[simp] theorem hold_draws : (hold i s).draws = s.draws := rfl

end Hold

section Emittx

variable (b : Byte) (s : State)

@[simp] theorem emitTx_cfg : (emitTx b s).cfg = s.cfg := rfl
@[simp] theorem emitTx_div : (emitTx b s).div = s.div := rfl
@[simp] theorem emitTx_u2x : (emitTx b s).u2x = s.u2x := rfl
@[simp] theorem emitTx_rxEn : (emitTx b s).rxEn = s.rxEn := rfl
@[simp] theorem emitTx_txEn : (emitTx b s).txEn = s.txEn := rfl
@[simp] theorem emitTx_rxcIe : (emitTx b s).rxcIe = s.rxcIe := rfl
@[simp] theorem emitTx_txcIe : (emitTx b s).txcIe = s.txcIe := rfl
@[simp] theorem emitTx_txBusy : (emitTx b s).txBusy = s.txBusy := rfl
@[simp] theorem emitTx_txShift : (emitTx b s).txShift = s.txShift := rfl
@[simp] theorem emitTx_buf : (emitTx b s).buf = s.buf := rfl
@[simp] theorem emitTx_wc : (emitTx b s).wc = s.wc := rfl
@[simp] theorem emitTx_rc : (emitTx b s).rc = s.rc := rfl
@[simp] theorem emitTx_cnt : (emitTx b s).cnt = s.cnt := rfl
@[simp] theorem emitTx_rxOvf : (emitTx b s).rxOvf = s.rxOvf := rfl
@[simp] theorem emitTx_txWire : (emitTx b s).txWire = s.txWire ++ [b] := rfl
@[simp] theorem emitTx_responses : (emitTx b s).responses = s.responses := rfl
@[simp] theorem emitTx_held : (emitTx b s).held = s.held := rfl
@[simp] theorem emitTx_hostQueue : (emitTx b s).hostQueue = s.hostQueue := rfl
@[simp] theorem emitTx_script : (emitTx b s).script = s.script := rfl
@[simp] theorem emitTx_draws : (emitTx b s).draws = s.draws := rfl

end Emittx

section Configure

variable (baud : BitVec 24) (hs : Bool) (s : State)

@[simp] theorem configure_cfg : (configure baud hs s).cfg = s.cfg := rfl
@[simp] theorem configure_div : (configure baud hs s).div = divisor s.cfg.fClk baud hs := rfl
@[simp] theorem configure_u2x : (configure baud hs s).u2x = hs := rfl
@[simp] theorem configure_rxEn : (configure baud hs s).rxEn = true := rfl
@[simp] theorem configure_txEn : (configure baud hs s).txEn = true := rfl
@[simp] theorem configure_rxcIe : (configure baud hs s).rxcIe = true := rfl
@[simp] theorem configure_txcIe : (configure baud hs s).txcIe = true := rfl
@[simp] theorem configure_txBusy : (configure baud hs s).txBusy = s.txBusy := rfl
@[simp] theorem configure_txShift : (configure baud hs s).txShift = s.txShift := rfl
@[simp] theorem configure_buf : (configure baud hs s).buf = s.buf := rfl
@[simp] theorem configure_wc : (configure baud hs s).wc = s.wc := rfl
@[simp] theorem configure_rc : (configure baud hs s).rc = s.rc := rfl
@[simp] theorem configure_cnt : (configure baud hs s).cnt = s.cnt := rfl
@[simp] theorem configure_rxOvf : (configure baud hs s).rxOvf = s.rxOvf := rfl
@[simp] theorem configure_txWire : (configure baud hs s).txWire = s.txWire := rfl
@[simp] theorem configure_responses : (configure baud hs s).responses = s.responses := rfl
@[simp] theorem configure_held : (configure baud hs s).held = s.held := rfl
@[simp] theorem configure_hostQueue : (configure baud hs s).hostQueue = s.hostQueue := rfl
@[simp] theorem configure_script : (configure baud hs s).script = s.script := rfl
@[simp] theorem configure_draws : (configure baud hs s).draws = s.draws := rfl

end Configure

section TakeTurn

variable (s : State)

@[simp] theorem takeTurn_cfg : (takeTurn s).cfg = s.cfg := by unfold takeTurn; split <;> rfl
@[simp] theorem takeTurn_div : (takeTurn s).div = s.div := by unfold takeTurn; split <;> rfl
@[simp] theorem takeTurn_u2x : (takeTurn s).u2x = s.u2x := by unfold takeTurn; split <;> rfl
@[simp] theorem takeTurn_rxEn : (takeTurn s).rxEn = s.rxEn := by unfold takeTurn; split <;> rfl
@[simp] theorem takeTurn_txEn : (takeTurn s).txEn = s.txEn := by unfold takeTurn; split <;> rfl
@[simp] theorem takeTurn_rxcIe : (takeTurn s).rxcIe = s.rxcIe := by unfold takeTurn; split <;> rfl
@[simp] theorem takeTurn_txcIe : (takeTurn s).txcIe = s.txcIe := by unfold takeTurn; split <;> rfl
@[simp] theorem takeTurn_txBusy : (takeTurn s).txBusy = s.txBusy := by unfold takeTurn; split <;> rfl
@[simp] theorem takeTurn_txShift : (takeTurn s).txShift = s.txShift := by unfold takeTurn; split <;> rfl
@[simp] theorem takeTurn_buf : (takeTurn s).buf = s.buf := by unfold takeTurn; split <;> rfl
@[simp] theorem takeTurn_wc : (takeTurn s).wc = s.wc := by unfold takeTurn; split <;> rfl
@[simp] theorem takeTurn_rc : (takeTurn s).rc = s.rc := by unfold takeTurn; split <;> rfl
@[simp] theorem takeTurn_cnt : (takeTurn s).cnt = s.cnt := by unfold takeTurn; split <;> rfl
@[simp] theorem takeTurn_rxOvf : (takeTurn s).rxOvf = s.rxOvf := by unfold takeTurn; split <;> rfl
@[simp] theorem takeTurn_txWire : (takeTurn s).txWire = s.txWire := by unfold takeTurn; split <;> rfl
@[simp] theorem takeTurn_responses : (takeTurn s).responses = s.responses := by unfold takeTurn; split <;> rfl
@[simp] theorem takeTurn_held : (takeTurn s).held = s.held := by unfold takeTurn; split <;> rfl
@[simp] theorem takeTurn_hostQueue : (takeTurn s).hostQueue = s.hostQueue := by unfold takeTurn; split <;> rfl

/-- With a turn placed, that turn is next and taking it leaves the rest. -/
theorem nextTurn_of_script {t : Turn} {ts : List Turn} (h : s.script = t :: ts) : nextTurn s = t := by
  simp [nextTurn, h]

theorem takeTurn_of_script {t : Turn} {ts : List Turn} (h : s.script = t :: ts) :
    takeTurn s = { s with script := ts } := by
  simp [takeTurn, h]

end TakeTurn

end Sys2Proof.Machine
end

