-- ==== Sys2Proof/Laws/Exec.lean ====
section
/-! SUPPORT. Once for each shared operation and each meaning: everything it can do when it answers a next
state. Later proofs cite these and unfold no meaning. -/

namespace Sys2Proof.Machine

@[simp] theorem onLegalConfig_of_wellFormed {s : State} (h : s.cfg.WellFormed) (r : Result) :
    onLegalConfig s r = r := if_pos h

theorem onLegalConfig_of_illFormed {s : State} (h : ¬s.cfg.WellFormed) (r : Result) :
    onLegalConfig s r = .refused .illFormedConfig := if_neg h

theorem onLegalConfig_eq_next {s t : State} {r : Result} (h : onLegalConfig s r = .next t) :
    s.cfg.WellFormed ∧ r = .next t := by
  unfold onLegalConfig at h
  split at h
  · exact ⟨‹_›, h⟩
  · cases h

theorem complete_eq_next {e : Except Fault State} {t : State} (h : complete e = .next t) : e = .ok t := by
  cases e <;> simp_all [complete]

@[simp] theorem bufRead_of_lt {i : Nat} {s : State} (h : i < s.cfg.cap) : bufRead i s = .ok (s.buf.slot i) :=
  if_pos h

@[simp] theorem bufWrite_of_lt {i : Nat} {b : Byte} {s : State} (h : i < s.cfg.cap) :
    bufWrite i b s = .ok { s with buf := s.buf.write i b } := if_pos h

theorem bufRead_eq_ok {i : Nat} {s : State} {b : Byte} (h : bufRead i s = .ok b) :
    i < s.cfg.cap ∧ b = s.buf.slot i := by
  unfold bufRead at h
  split at h <;> simp_all

theorem bufWrite_eq_ok {i : Nat} {b : Byte} {s t : State} (h : bufWrite i b s = .ok t) :
    i < s.cfg.cap ∧ t = { s with buf := s.buf.write i b } := by
  unfold bufWrite at h
  split at h <;> simp_all

theorem except_map_eq_ok {α β : Type} {e : Except Fault α} {f : α → β} {y : β} (h : e.map f = .ok y) :
    ∃ x, e = .ok x ∧ y = f x := by
  cases e with
  | error _ => simp [Except.map] at h
  | ok x => exact ⟨x, rfl, by simpa [Except.map, eq_comm] using h⟩

/-- INIT: turned away for a zero baud, held, or accepted (R58, R60). -/
theorem execInit_cases {baud : BitVec 24} {hs : Bool} {s t : State} (h : execInit baud hs s = .next t) :
    s.cfg.WellFormed ∧
      ((baud = 0 ∧ t = raise .illegal s) ∨
        (baud ≠ 0 ∧ s.txBusy = true ∧ t = hold (.init baud hs) s) ∨
        (baud ≠ 0 ∧ s.txBusy = false ∧ t = respond .ok 0 (configure baud hs s))) := by
  obtain ⟨hc, h⟩ := onLegalConfig_eq_next h
  refine ⟨hc, ?_⟩
  split_ifs at h with h0 hb <;> cases h
  · exact .inl ⟨h0, rfl⟩
  · exact .inr (.inl ⟨h0, hb, rfl⟩)
  · exact .inr (.inr ⟨h0, by simpa using hb, rfl⟩)

/-- SEND: NOT_INIT, held, or accepted (R63). -/
theorem execSend_cases {b : Byte} {s t : State} (h : execSend b s = .next t) :
    s.cfg.WellFormed ∧
      ((s.txEn = false ∧ t = raise .notInit s) ∨
        (s.txEn = true ∧ s.txBusy = true ∧ t = hold (.send b) s) ∨
        (s.txEn = true ∧ s.txBusy = false ∧ t = respond .ok 0 { s with txBusy := true, txShift := b })) := by
  obtain ⟨hc, h⟩ := onLegalConfig_eq_next h
  refine ⟨hc, ?_⟩
  split_ifs at h with h0 hb <;> cases h
  · exact .inl ⟨by simpa using h0, rfl⟩
  · exact .inr (.inl ⟨by simpa using h0, hb, rfl⟩)
  · exact .inr (.inr ⟨by simpa using h0, by simpa using hb, rfl⟩)

/-- TX_DONE: the byte departs, or the turn passes (R64). -/
theorem execTxDone_cases {s t : State} (h : execTxDone s = .next t) :
    s.cfg.WellFormed ∧
      ((txDoneEnabled s = true ∧ t = { emitTx s.txShift s with txBusy := false }) ∨
        (txDoneEnabled s = false ∧ t = s)) := by
  obtain ⟨hc, h⟩ := onLegalConfig_eq_next h
  refine ⟨hc, ?_⟩
  split_ifs at h with h0 <;> cases h
  · exact .inl ⟨h0, rfl⟩
  · exact .inr ⟨by simpa using h0, rfl⟩

theorem txDoneEnabled_iff {s : State} : txDoneEnabled s = true ↔ s.txBusy = true ∧ s.txcIe = true := by
  simp [txDoneEnabled]

theorem rxEnabled_iff {s : State} : rxEnabled s = true ↔ s.rxEn = true ∧ s.rxcIe = true := by
  simp [rxEnabled]

/-- A RX_EVENT that stores: its byte at the write cursor, which advances, and the count up by one. -/
theorem rxStore_eq_ok {b : Byte} {s t : State} (h : rxStore b s = .ok t) :
    s.wc < s.cfg.cap ∧
      t = { s with buf := s.buf.write s.wc b, cnt := s.cnt + 1, wc := nextIndex s s.wc } := by
  obtain ⟨x, hx, rfl⟩ := except_map_eq_ok h
  obtain ⟨hw, rfl⟩ := bufWrite_eq_ok hx
  exact ⟨hw, rfl⟩

/-- RX_EVENT: lost, stored, or the full branch of one of the three policies (R68, R69). -/
theorem execRxEvent_cases {b : Byte} {s t : State} (h : execRxEvent b s = .next t) :
    s.cfg.WellFormed ∧
      ((rxEnabled s = false ∧ t = s) ∨
        (rxEnabled s = true ∧ ¬bufferFull s ∧ s.wc < s.cfg.cap ∧
          t = { s with buf := s.buf.write s.wc b, cnt := s.cnt + 1, wc := nextIndex s s.wc }) ∨
        (rxEnabled s = true ∧ bufferFull s ∧ s.cfg.ovfPolicy = .overwriteOldest ∧ s.wc < s.cfg.cap ∧
          t = { s with
            rxOvf := true, buf := s.buf.write s.wc b, wc := nextIndex s s.wc, rc := nextIndex s s.rc }) ∨
        (rxEnabled s = true ∧ bufferFull s ∧ s.cfg.ovfPolicy = .dropNewest ∧ t = { s with rxOvf := true }) ∨
        (rxEnabled s = true ∧ bufferFull s ∧ s.cfg.ovfPolicy = .sourceCompat ∧ s.wc < s.cfg.cap ∧
          t = { s with
            rxOvf := true, buf := s.buf.write s.wc b, cnt := s.cnt + 1, wc := nextIndex s s.wc })) := by
  obtain ⟨hc, h⟩ := onLegalConfig_eq_next h
  refine ⟨hc, ?_⟩
  split_ifs at h with h0 hf
  · cases h
    exact .inl ⟨by simpa using h0, rfl⟩
  · have h0 : rxEnabled s = true := by simpa using h0
    replace h := complete_eq_next h
    unfold rxFull overflowData at h
    rcases hp : s.cfg.ovfPolicy <;> simp only [hp] at h
    · obtain ⟨x, hx, rfl⟩ := except_map_eq_ok h
      obtain ⟨hw, rfl⟩ := bufWrite_eq_ok hx
      exact .inr (.inr (.inl ⟨h0, hf, rfl, hw, rfl⟩))
    · cases h
      exact .inr (.inr (.inr (.inl ⟨h0, hf, rfl, rfl⟩)))
    · obtain ⟨x, hx, rfl⟩ := except_map_eq_ok h
      obtain ⟨hw, rfl⟩ := bufWrite_eq_ok hx
      exact .inr (.inr (.inr (.inr ⟨h0, hf, rfl, hw, rfl⟩)))
  · have h0 : rxEnabled s = true := by simpa using h0
    obtain ⟨hw, rfl⟩ := rxStore_eq_ok (complete_eq_next h)
    exact .inr (.inl ⟨h0, hf, hw, rfl⟩)

/-- PEND answers the count and changes nothing (R70). -/
theorem execPend_cases {s t : State} (h : execPend s = .next t) :
    s.cfg.WellFormed ∧ t = respond .ok (zext24 s.cnt) s := by
  obtain ⟨hc, h⟩ := onLegalConfig_eq_next h
  cases h
  exact ⟨hc, rfl⟩

/-- READ: EMPTY, or the byte at the read cursor, consumed (R71). -/
theorem execRead_cases {s t : State} (h : execRead s = .next t) :
    s.cfg.WellFormed ∧
      ((s.cnt = 0 ∧ t = raise .empty s) ∨
        (s.cnt ≠ 0 ∧ s.rc < s.cfg.cap ∧
          t = respond .ok (zext24 (s.buf.slot s.rc))
            { s with rc := nextIndex s s.rc, cnt := s.cnt - 1 })) := by
  obtain ⟨hc, h⟩ := onLegalConfig_eq_next h
  refine ⟨hc, ?_⟩
  split_ifs at h with h0
  · cases h
    exact .inl ⟨h0, rfl⟩
  · obtain ⟨b, hb, rfl⟩ := except_map_eq_ok (complete_eq_next h)
    obtain ⟨hr, rfl⟩ := bufRead_eq_ok hb
    exact .inr ⟨h0, hr, rfl⟩

/-- STAT answers the status and changes nothing (R76). -/
theorem execStat_cases {s t : State} (h : execStat s = .next t) :
    s.cfg.WellFormed ∧ t = respond .ok (statData s) s := by
  obtain ⟨hc, h⟩ := onLegalConfig_eq_next h
  cases h
  exact ⟨hc, rfl⟩

/-- CLROVF clears the sticky flag (R77). -/
theorem execClrovf_cases {s t : State} (h : execClrovf s = .next t) :
    s.cfg.WellFormed ∧ t = respond .ok 0 { s with rxOvf := false } := by
  obtain ⟨hc, h⟩ := onLegalConfig_eq_next h
  cases h
  exact ⟨hc, rfl⟩

end Sys2Proof.Machine
end

