-- ==== Sys2Proof/Laws/Words.lean ====
section
/-! SUPPORT. The bits of the words that the block takes and gives, and the fields the decoder reads from the
encoder's formats. -/

namespace Sys2Proof

/-- The bits of an INIT word (R48). -/
theorem formatInit_getLsbD (baud : BitVec 24) (hs : Bool) (k : Nat) :
    (formatInit baud hs).getLsbD k =
      if k < 24 then baud.getLsbD k else if k = 24 then hs else decide (k = 28) := by
  change BitVec.getLsbD (w := 4 + 3 + 1 + 24) (0x1#4 ++ 0#3 ++ BitVec.ofBool hs ++ baud) k = _
  rw [BitVec.getLsbD_append, BitVec.getLsbD_append, BitVec.getLsbD_append]
  by_cases h1 : k < 24
  · rw [if_pos h1, if_pos h1]
  · rw [if_neg h1, if_neg h1]
    by_cases h2 : k = 24
    · subst h2; simp
    · rw [if_neg h2, if_neg (by omega)]
      by_cases h3 : k < 28
      · rw [if_pos (by omega)]; simp; omega
      · rw [if_neg (by omega)]
        by_cases h4 : k < 32
        · interval_cases k <;> simp
        · rw [BitVec.getLsbD_of_ge _ _ (by omega)]; simp; omega

/-- The bits of a F_BYTE word (R48). -/
theorem formatByte_getLsbD (op : BitVec 4) (b : Byte) (k : Nat) :
    (formatByte op b).getLsbD k =
      if k < 8 then b.getLsbD k else if k < 28 then false else op.getLsbD (k - 28) := by
  change BitVec.getLsbD (w := 4 + 20 + 8) (op ++ 0#20 ++ b) k = _
  rw [BitVec.getLsbD_append, BitVec.getLsbD_append]
  by_cases h1 : k < 8
  · rw [if_pos h1, if_pos h1]
  · rw [if_neg h1, if_neg h1]
    by_cases h2 : k < 28
    · rw [if_pos h2, if_pos (by omega)]; simp
    · rw [if_neg h2, if_neg (by omega)]; congr 1

/-- The bits of a F_NONE word (R48). -/
theorem formatNone_getLsbD (op : BitVec 4) (k : Nat) :
    (formatNone op).getLsbD k = if k < 28 then false else op.getLsbD (k - 28) := by
  change BitVec.getLsbD (w := 4 + 28) (op ++ 0#28) k = _
  rw [BitVec.getLsbD_append]
  by_cases h1 : k < 28
  · rw [if_pos h1, if_pos h1]; simp
  · rw [if_neg h1, if_neg h1]

/-- The bits of a word carried as four bytes (20_memory.md R35). -/
theorem wordOfBytes_getLsbD (b0 b1 b2 b3 : Byte) (k : Nat) :
    (wordOfBytes b0 b1 b2 b3).getLsbD k =
      if k < 8 then b0.getLsbD k else if k < 16 then b1.getLsbD (k - 8)
      else if k < 24 then b2.getLsbD (k - 16) else b3.getLsbD (k - 24) := by
  change BitVec.getLsbD (w := 8 + 8 + 8 + 8) (b3 ++ b2 ++ b1 ++ b0) k = _
  rw [BitVec.getLsbD_append, BitVec.getLsbD_append, BitVec.getLsbD_append]
  by_cases h1 : k < 8
  · rw [if_pos h1, if_pos h1]
  · rw [if_neg h1, if_neg h1]
    by_cases h2 : k < 16
    · rw [if_pos h2, if_pos (by omega)]
    · rw [if_neg h2, if_neg (by omega)]
      by_cases h3 : k < 24
      · rw [if_pos h3, if_pos (by omega)]; congr 1
      · rw [if_neg h3, if_neg (by omega)]; congr 1

theorem opField_formatInit (baud : BitVec 24) (hs : Bool) : opField (formatInit baud hs) = 0x1#4 := by
  apply BitVec.eq_of_getLsbD_eq
  intro k hk
  rw [opField, BitVec.getLsbD_extractLsb', formatInit_getLsbD]
  interval_cases k <;> simp

theorem initReserved_formatInit (baud : BitVec 24) (hs : Bool) : initReserved (formatInit baud hs) = 0#3 := by
  apply BitVec.eq_of_getLsbD_eq
  intro k hk
  rw [initReserved, BitVec.getLsbD_extractLsb', formatInit_getLsbD]
  interval_cases k <;> simp

theorem baudField_formatInit (baud : BitVec 24) (hs : Bool) : baudField (formatInit baud hs) = baud := by
  apply BitVec.eq_of_getLsbD_eq
  intro k hk
  rw [baudField, BitVec.getLsbD_extractLsb', formatInit_getLsbD]
  simp [hk]

theorem hsField_formatInit (baud : BitVec 24) (hs : Bool) : hsField (formatInit baud hs) = hs := by
  rw [hsField, formatInit_getLsbD]; simp

theorem opField_formatByte (op : BitVec 4) (b : Byte) : opField (formatByte op b) = op := by
  apply BitVec.eq_of_getLsbD_eq
  intro k hk
  rw [opField, BitVec.getLsbD_extractLsb', formatByte_getLsbD]
  rw [if_neg (by omega), if_neg (by omega)]; simp [hk]

theorem byteReserved_formatByte (op : BitVec 4) (b : Byte) : byteReserved (formatByte op b) = 0#20 := by
  apply BitVec.eq_of_getLsbD_eq
  intro k hk
  rw [byteReserved, BitVec.getLsbD_extractLsb', formatByte_getLsbD]
  rw [if_neg (by omega), if_pos (by omega)]; simp

theorem byteField_formatByte (op : BitVec 4) (b : Byte) : byteField (formatByte op b) = b := by
  apply BitVec.eq_of_getLsbD_eq
  intro k hk
  rw [byteField, BitVec.getLsbD_extractLsb', formatByte_getLsbD]
  simp [hk]

theorem opField_formatNone (op : BitVec 4) : opField (formatNone op) = op := by
  apply BitVec.eq_of_getLsbD_eq
  intro k hk
  rw [opField, BitVec.getLsbD_extractLsb', formatNone_getLsbD]
  rw [if_neg (by omega)]; simp [hk]

theorem noneReserved_formatNone (op : BitVec 4) : noneReserved (formatNone op) = 0#28 := by
  apply BitVec.eq_of_getLsbD_eq
  intro k hk
  rw [noneReserved, BitVec.getLsbD_extractLsb', formatNone_getLsbD]
  rw [if_pos (by omega)]; simp

/-- The bytes of a word, put together again, are the word. -/
theorem wordOfBytes_wordBytes (w : Word) :
    wordOfBytes (w.extractLsb' 0 8) (w.extractLsb' 8 8) (w.extractLsb' 16 8) (w.extractLsb' 24 8) = w := by
  apply BitVec.eq_of_getLsbD_eq
  intro k hk
  rw [wordOfBytes_getLsbD]
  split_ifs <;> simp only [BitVec.getLsbD_extractLsb'] <;>
    rw [decide_eq_true (by omega), Bool.true_and] <;> congr 1 <;> omega

namespace Machine

/-- The bits of a response word (R50). -/
theorem responseWord_getLsbD (st : Status) (d : BitVec 24) (k : Nat) :
    (responseWord st d).getLsbD k =
      if k < 24 then d.getLsbD k else if k < 30 then false else st.code.getLsbD (k - 30) := by
  change BitVec.getLsbD (w := 2 + 6 + 24) (st.code ++ 0#6 ++ d) k = _
  rw [BitVec.getLsbD_append, BitVec.getLsbD_append]
  by_cases h1 : k < 24
  · rw [if_pos h1, if_pos h1]
  · rw [if_neg h1, if_neg h1]
    by_cases h2 : k < 30
    · rw [if_pos h2, if_pos (by omega)]; simp
    · rw [if_neg h2, if_neg (by omega)]; congr 1

@[simp] theorem responseWord_ok_zero : responseWord .ok 0#24 = 0x00000000#32 := by decide
@[simp] theorem responseWord_empty_zero : responseWord .empty 0#24 = 0x40000000#32 := by decide
@[simp] theorem responseWord_notInit_zero : responseWord .notInit 0#24 = 0x80000000#32 := by decide
@[simp] theorem responseWord_illegal_zero : responseWord .illegal 0#24 = 0xC0000000#32 := by decide

/-- An OK answer with zero-extended data is the data, zero-extended. -/
theorem responseWord_ok_zext24 {n : Nat} (hn : n ≤ 24) (v : BitVec n) :
    responseWord .ok (zext24 v) = v.setWidth 32 := by
  apply BitVec.eq_of_getLsbD_eq
  intro k hk
  rw [responseWord_getLsbD]
  simp only [zext24, BitVec.getLsbD_setWidth, Status.code]
  split_ifs with h1 h2
  · simp [h1, hk]
  · rw [BitVec.getLsbD_of_ge v k (by omega)]; simp
  · rw [BitVec.getLsbD_of_ge v k (by omega)]; simp

/-- The bits of STAT's data (R76). -/
theorem statData_getLsbD (s : State) (k : Nat) :
    (statData s).getLsbD k =
      if k < 8 then (statFlags s).getLsbD k else s.div.getLsbD (k - 8) := by
  change BitVec.getLsbD (w := 16 + 8) (s.div ++ statFlags s) k = _
  rw [BitVec.getLsbD_append]

end Machine

end Sys2Proof
end

