-- ==== Sys2Proof/Laws/PerInstr.lean ====
section
/-! SUPPORT. What is said of every instruction as syntax, one lemma per constructor: its word lies in its row
of spec/opcode_table.json. -/

namespace Sys2Proof.Laws

/-- The `mask` of the instruction's row: the bits its format fixes (30_encoding.md R48). -/
def rowMask : Instr → Word
  | .init _ _ => 0xFE000000
  | .send _ => 0xFFFFFF00
  | .pend => 0xFFFFFFFF
  | .read => 0xFFFFFFFF
  | .stat => 0xFFFFFFFF
  | .clrovf => 0xFFFFFFFF
  | .rxEvent _ => 0xFFFFFF00
  | .txDone => 0xFFFFFFFF

/-- The `match` of the instruction's row: what those bits are (30_encoding.md R52). -/
def rowMatch : Instr → Word
  | .init _ _ => 0x10000000
  | .send _ => 0x20000000
  | .pend => 0x30000000
  | .read => 0x40000000
  | .stat => 0x50000000
  | .clrovf => 0x60000000
  | .rxEvent _ => 0x80000000
  | .txDone => 0x90000000

/-- The word of an instruction has the fixed bits of its row of the opcode table. -/
def EncodedInTable.Statement (i : Instr) : Prop := encode i &&& rowMask i = rowMatch i

theorem EncodedInTable.init (baud : BitVec 24) (hs : Bool) : EncodedInTable.Statement (.init baud hs) := by
  apply BitVec.eq_of_getLsbD_eq
  intro k hk
  simp only [encode, rowMask, rowMatch, BitVec.getLsbD_and, formatInit_getLsbD]
  interval_cases k <;> simp

theorem formatByte_and_mask (op : BitVec 4) (b : Byte) : formatByte op b &&& 0xFFFFFF00 = formatByte op 0 := by
  apply BitVec.eq_of_getLsbD_eq
  intro k hk
  rw [BitVec.getLsbD_and, formatByte_getLsbD, formatByte_getLsbD]
  interval_cases k <;> simp

theorem EncodedInTable.send (b : Byte) : EncodedInTable.Statement (.send b) := formatByte_and_mask 0x2 b

theorem EncodedInTable.pend : EncodedInTable.Statement .pend := by unfold EncodedInTable.Statement; decide

theorem EncodedInTable.read : EncodedInTable.Statement .read := by unfold EncodedInTable.Statement; decide

theorem EncodedInTable.stat : EncodedInTable.Statement .stat := by unfold EncodedInTable.Statement; decide

theorem EncodedInTable.clrovf : EncodedInTable.Statement .clrovf := by unfold EncodedInTable.Statement; decide

theorem EncodedInTable.rxEvent (b : Byte) : EncodedInTable.Statement (.rxEvent b) := formatByte_and_mask 0x8 b

theorem EncodedInTable.txDone : EncodedInTable.Statement .txDone := by unfold EncodedInTable.Statement; decide

end Sys2Proof.Laws
end

