-- ==== Sys2Proof/Laws/Queue.lean ====
section
/-! SUPPORT. The pending count as a number, and what storing and reading do to the unread bytes
(10_state.md R26, R30). -/

namespace Sys2Proof.Machine

/-- Below a capacity that fits, the count does not wrap. -/
theorem count_succ {c : BitVec 16} {cap : Nat} (h : c.toNat < cap) (hcap : cap ≤ 65535) :
    (c + 1).toNat = c.toNat + 1 := by
  rw [BitVec.toNat_add]; simp; omega

/-- In general it wraps modulo 2^16. -/
theorem count_succ_mod (c : BitVec 16) : (c + 1).toNat = (c.toNat + 1) % 65536 := by
  rw [BitVec.toNat_add]; simp

theorem count_pos {c : BitVec 16} (h : c ≠ 0) : 0 < c.toNat := by
  have : c.toNat ≠ 0 := fun e => h (BitVec.eq_of_toNat_eq (by simpa using e))
  omega

/-- A count that is not 0 does not wrap downward. -/
theorem count_pred {c : BitVec 16} (h : c ≠ 0) : (c - 1).toNat + 1 = c.toNat := by
  have := count_pos h
  rw [BitVec.toNat_sub]; simp; omega

/-- A written slot stays written. -/
theorem Memory.isSome_write {m : Memory} {i j : Nat} {b : Byte} (h : (m.read j).isSome) :
    ((m.write i b).read j).isSome := by
  rw [Memory.read_write]; split_ifs <;> simp [h]

/-- Two different distances below the capacity reach two different slots. -/
theorem add_mod_ne {a b c k : Nat} (hk : k < b) (hb : b < c) : (a + k) % c ≠ (a + b) % c := by
  intro h
  have h1 := Nat.sub_mod_eq_zero_of_mod_eq h.symm
  rw [show a + b - (a + k) = b - k by omega] at h1
  have := Nat.le_of_dvd (by omega) (Nat.dvd_of_mod_eq_zero h1)
  omega

@[simp] theorem unread_length (s : State) : (unread s).length = s.cnt.toNat := by simp [unread]

theorem unread_congr {s t : State} (hcnt : t.cnt = s.cnt) (hbuf : t.buf = s.buf) (hrc : t.rc = s.rc)
    (hcfg : t.cfg = s.cfg) : unread t = unread s := by
  unfold unread; rw [hcnt, hbuf, hrc, hcfg]

/-- Storing at the write cursor of a buffer that is not full appends to the unread bytes. -/
theorem unread_store {s : State} (b : Byte) (hcap : s.cfg.cap ≤ 65535) (hlt : s.cnt.toNat < s.cfg.cap)
    (hw : s.wc = (s.rc + s.cnt.toNat) % s.cfg.cap) :
    unread { s with buf := s.buf.write s.wc b, cnt := s.cnt + 1, wc := nextIndex s s.wc } =
      unread s ++ [b] := by
  unfold unread
  simp only [count_succ hlt hcap]
  rw [List.range_succ, List.map_append]
  congr 1
  · apply List.map_congr_left
    intro k hk
    rw [List.mem_range] at hk
    rw [Memory.slot_write, hw, if_neg (add_mod_ne hk hlt)]
  · simp [Memory.slot_write, hw]

/-- Consuming the byte at the read cursor takes off the head of the unread bytes. -/
theorem unread_consume {s : State} (h0 : s.cnt ≠ 0) (hr : s.rc < s.cfg.cap) :
    unread s = s.buf.slot s.rc :: unread { s with rc := nextIndex s s.rc, cnt := s.cnt - 1 } := by
  unfold unread
  have := count_pred h0
  simp only [nextIndex]
  rw [← this, List.range_succ_eq_map, List.map_cons, List.map_map]
  congr 1
  · rw [Nat.add_zero, Nat.mod_eq_of_lt hr]
  · apply List.map_congr_left
    intro k hk
    simp only [Function.comp]
    rw [Nat.mod_add_mod]; congr 2; omega

end Sys2Proof.Machine
end

