-- ==== Sys2Proof/Laws/Step.lean ====
section
/-! SUPPORT. Once for a step: everything it can do. -/

namespace Sys2Proof.Machine

/-- The state in which the instruction of the next turn runs: the turn taken off, and at a host turn the held
command or the next word taken from the host. -/
def fetched (s : State) : State :=
  match nextTurn s with
  | .host =>
    match s.held with
    | some _ => { takeTurn s with held := none }
    | none =>
      match hostPresents s with
      | some (_, rest) => { takeTurn s with hostQueue := rest }
      | none => takeTurn s
  | _ => takeTurn s

theorem hostPresents_takeTurn (s : State) : hostPresents (takeTurn s) = hostPresents s := by
  unfold takeTurn; split <;> rfl

/-- A step that runs an instruction is that instruction's meaning in the fetched state. -/
theorem step_of_issued {s : State} {i : Instr} (hc : s.cfg.WellFormed) (hi : issued s = some i) :
    step s = exec i (fetched s) := by
  unfold step turnStep
  rw [onLegalConfig_of_wellFormed hc]
  unfold issued at hi
  unfold fetched agentTurn
  cases ht : nextTurn s with
  | rx b => simp only [ht] at hi ⊢; cases hi; rfl
  | txDone => simp only [ht] at hi ⊢; cases hi; rfl
  | host =>
    simp only [ht, hostTurn, takeTurn_held, hostPresents_takeTurn] at hi ⊢
    cases hh : s.held with
    | some j => simp only [hh] at hi ⊢; cases hi; rfl
    | none =>
      simp only [hh] at hi ⊢
      cases hp : hostPresents s with
      | none => simp [hp] at hi
      | some p =>
        obtain ⟨w, rest⟩ := p
        simp only [hp, presentWord] at hi ⊢
        cases hd : decodePort w with
        | error e => simp [hd, Except.toOption] at hi
        | ok j => simp only [hd, Except.toOption, Option.some.injEq] at hi ⊢; rw [hi]

/-- A step that runs no instruction: an illegal word is answered, or the host's turn passes. -/
theorem step_of_not_issued {s : State} (hc : s.cfg.WellFormed) (hi : issued s = none) :
    nextTurn s = .host ∧ s.held = none ∧
      ((hostPresents s = none ∧ step s = .next (takeTurn s)) ∨
        ∃ w rest e, hostPresents s = some (w, rest) ∧ decodePort w = .error e ∧
          step s = .next (raise .illegal { takeTurn s with hostQueue := rest })) := by
  unfold issued at hi
  cases ht : nextTurn s with
  | rx b => simp [ht] at hi
  | txDone => simp [ht] at hi
  | host =>
    cases hh : s.held with
    | some j => simp [ht, hh] at hi
    | none =>
      have hstep : step s = hostTurn (takeTurn s) := by
        unfold step turnStep
        rw [onLegalConfig_of_wellFormed hc, ht, agentTurn]
      refine ⟨rfl, rfl, ?_⟩
      rw [hstep]
      simp only [hostTurn, takeTurn_held, hh, hostPresents_takeTurn]
      cases hp : hostPresents s with
      | none => exact .inl ⟨rfl, rfl⟩
      | some p =>
        obtain ⟨w, rest⟩ := p
        refine .inr ⟨w, rest, ?_⟩
        simp only [ht, hh, hp] at hi
        cases hd : decodePort w with
        | ok j => simp [hd, Except.toOption] at hi
        | error e => exact ⟨e, rfl, rfl, by simp [presentWord, hd]⟩

/-- A step that answers ran in a machine with a legal configuration. -/
theorem wellFormed_of_step {s t : State} (h : step s = .next t) : s.cfg.WellFormed :=
  (onLegalConfig_eq_next h).1

section Fetched

variable (s : State)

@[simp] theorem fetched_cfg : (fetched s).cfg = s.cfg := by unfold fetched; repeat (first | split | simp)
@[simp] theorem fetched_div : (fetched s).div = s.div := by unfold fetched; repeat (first | split | simp)
@[simp] theorem fetched_u2x : (fetched s).u2x = s.u2x := by unfold fetched; repeat (first | split | simp)
@[simp] theorem fetched_rxEn : (fetched s).rxEn = s.rxEn := by unfold fetched; repeat (first | split | simp)
@[simp] theorem fetched_txEn : (fetched s).txEn = s.txEn := by unfold fetched; repeat (first | split | simp)
@[simp] theorem fetched_rxcIe : (fetched s).rxcIe = s.rxcIe := by unfold fetched; repeat (first | split | simp)
@[simp] theorem fetched_txcIe : (fetched s).txcIe = s.txcIe := by unfold fetched; repeat (first | split | simp)
@[simp] theorem fetched_txBusy : (fetched s).txBusy = s.txBusy := by unfold fetched; repeat (first | split | simp)
@[simp] theorem fetched_txShift : (fetched s).txShift = s.txShift := by
  unfold fetched; repeat (first | split | simp)
@[simp] theorem fetched_buf : (fetched s).buf = s.buf := by unfold fetched; repeat (first | split | simp)
@[simp] theorem fetched_wc : (fetched s).wc = s.wc := by unfold fetched; repeat (first | split | simp)
@[simp] theorem fetched_rc : (fetched s).rc = s.rc := by unfold fetched; repeat (first | split | simp)
@[simp] theorem fetched_cnt : (fetched s).cnt = s.cnt := by unfold fetched; repeat (first | split | simp)
@[simp] theorem fetched_rxOvf : (fetched s).rxOvf = s.rxOvf := by unfold fetched; repeat (first | split | simp)
@[simp] theorem fetched_txWire : (fetched s).txWire = s.txWire := by unfold fetched; repeat (first | split | simp)
@[simp] theorem fetched_responses : (fetched s).responses = s.responses := by
  unfold fetched; repeat (first | split | simp)

end Fetched

end Sys2Proof.Machine
end

