-- ==== Sys2Proof/Laws/Run.lean ====
section
/-! SUPPORT. Once for runs: the two shapes of a step, what a step without an instruction leaves, and how steps
are put together. -/

namespace Sys2Proof.Machine

/-- A step that answers ran an instruction, let the host's turn pass, or answered an illegal word. -/
theorem step_cases {s t : State} (h : step s = .next t) :
    (∃ i, issued s = some i ∧ exec i (fetched s) = .next t) ∨
      (issued s = none ∧ s.held = none ∧ nextTurn s = .host ∧
        ((hostPresents s = none ∧ t = takeTurn s) ∨
          ∃ w rest e, hostPresents s = some (w, rest) ∧ decodePort w = .error e ∧
            t = raise .illegal { takeTurn s with hostQueue := rest })) := by
  have hc := wellFormed_of_step h
  cases hi : issued s with
  | some i => exact .inl ⟨i, rfl, by rw [← step_of_issued hc hi, h]⟩
  | none =>
    obtain ⟨hn, hh, ⟨hp, e⟩ | ⟨w, rest, er, hp, hd, e⟩⟩ := step_of_not_issued hc hi
    · rw [h] at e; cases e
      exact .inr ⟨rfl, hh, hn, .inl ⟨hp, rfl⟩⟩
    · rw [h] at e; cases e
      exact .inr ⟨rfl, hh, hn, .inr ⟨w, rest, er, hp, hd, rfl⟩⟩

/-- A step that runs no instruction changes no field of the block. -/
theorem block_of_not_issued {s t : State} (h : step s = .next t) (hi : issued s = none) :
    t.cfg = s.cfg ∧ t.div = s.div ∧ t.u2x = s.u2x ∧ t.rxEn = s.rxEn ∧ t.txEn = s.txEn ∧ t.rxcIe = s.rxcIe ∧
      t.txcIe = s.txcIe ∧ t.txBusy = s.txBusy ∧ t.txShift = s.txShift ∧ t.buf = s.buf ∧ t.wc = s.wc ∧
      t.rc = s.rc ∧ t.cnt = s.cnt ∧ t.rxOvf = s.rxOvf ∧ t.txWire = s.txWire ∧ t.held = s.held := by
  rcases step_cases h with ⟨i, hi', -⟩ | ⟨-, -, -, ⟨-, rfl⟩ | ⟨_, _, _, -, -, rfl⟩⟩
  · rw [hi] at hi'; cases hi'
  · simp
  · simp

/-- The fetched state holds nothing at a host turn, and else what was held. -/
theorem fetched_held_cases (s : State) :
    (fetched s).held = none ∨ ((fetched s).held = s.held ∧ nextTurn s ≠ .host) := by
  unfold fetched
  cases hn : nextTurn s <;> simp
  cases hh : s.held <;> simp
  cases hp : hostPresents s <;> simp [hh]

/-- What an instruction adds to the history depends on no field that fetching it changes. -/
theorem record_fetched (i : Instr) (s : State) (h : History) : h.record i (fetched s) = h.record i s := by
  cases i <;> simp [History.record, rxEnabled, bufferFull]

theorem afterStep_of_issued {s : State} {i : Instr} (hi : issued s = some i) (h : History) :
    h.afterStep s = h.record i (fetched s) := by
  simp [History.afterStep, hi, record_fetched]

theorem afterStep_of_not_issued {s : State} (hi : issued s = none) (h : History) : h.afterStep s = h := by
  simp [History.afterStep, hi]

/-- With a turn placed, a step is that agent's turn. -/
theorem step_of_script {s : State} {t : Turn} {ts : List Turn} (hc : s.cfg.WellFormed)
    (h : s.script = t :: ts) : step s = agentTurn t { s with script := ts } := by
  unfold step turnStep
  rw [onLegalConfig_of_wellFormed hc, nextTurn_of_script _ h, takeTurn_of_script _ h]

theorem runSteps_one {s t : State} (h : step s = .next t) : runSteps 1 s = .next t := by simp [runSteps, h]

/-- Steps after steps. -/
theorem runSteps_add (m n : Nat) {s t : State} (h : runSteps m s = .next t) :
    runSteps (m + n) s = runSteps n t := by
  induction m generalizing s with
  | zero => simp only [runSteps] at h; cases h; rw [Nat.zero_add]
  | succ m ih =>
    rw [show m + 1 + n = (m + n) + 1 by omega]
    simp only [runSteps] at h ⊢
    cases hs : step s with
    | next u => rw [hs] at h; exact ih h
    | fault f => rw [hs] at h; cases h
    | refused f => rw [hs] at h; cases h

/-- Everything but the receive state, the turns and the receive enables is the same. -/
def SameButReceive (s t : State) : Prop :=
  t.cfg = s.cfg ∧ t.div = s.div ∧ t.u2x = s.u2x ∧ t.txEn = s.txEn ∧ t.txcIe = s.txcIe ∧ t.txBusy = s.txBusy ∧
    t.txShift = s.txShift ∧ t.txWire = s.txWire ∧ t.responses = s.responses ∧ t.held = s.held ∧
    t.hostQueue = s.hostQueue

/-- A RX_EVENT changes the receive state only, and takes no turn itself. -/
theorem sameButReceive_of_rxEvent {b : Byte} {s t : State} (h : exec (.rxEvent b) s = .next t) :
    SameButReceive s t ∧ t.script = s.script := by
  obtain ⟨-, ⟨-, rfl⟩ | ⟨-, -, -, rfl⟩ | ⟨-, -, -, -, rfl⟩ | ⟨-, -, -, rfl⟩ | ⟨-, -, -, -, rfl⟩⟩ :=
    execRxEvent_cases h <;> exact ⟨by simp [SameButReceive], rfl⟩

/-- What a step can do to the host and to the transmitter, by whose turn it is: nothing, a TX_DONE, the held
command retried, or a word presented. -/
theorem turn_cases {s t : State} (h : step s = .next t) :
    (SameButReceive s t ∧ (nextTurn s = .host → s.held = none ∧ hostPresents s = none) ∧
        (nextTurn s = .txDone → ¬(s.txBusy = true ∧ s.txcIe = true))) ∨
      (nextTurn s = .txDone ∧ s.txBusy = true ∧ s.txcIe = true ∧
        t = { takeTurn s with txBusy := false, txWire := s.txWire ++ [s.txShift] }) ∨
      (nextTurn s = .host ∧ ∃ i, s.held = some i ∧ exec i { takeTurn s with held := none } = .next t) ∨
      (nextTurn s = .host ∧ s.held = none ∧ ∃ w rest, hostPresents s = some (w, rest) ∧
        presentWord w { takeTurn s with hostQueue := rest } = .next t) := by
  have hc := wellFormed_of_step h
  have h' : agentTurn (nextTurn s) (takeTurn s) = .next t := by
    unfold step turnStep at h; rwa [onLegalConfig_of_wellFormed hc] at h
  cases hn : nextTurn s with
  | rx b =>
    rw [hn] at h'
    exact .inl ⟨by simpa [SameButReceive] using (sameButReceive_of_rxEvent h').1, by simp, by simp⟩
  | txDone =>
    rw [hn] at h'
    obtain ⟨-, ⟨h0, rfl⟩ | ⟨h0, rfl⟩⟩ := execTxDone_cases h'
    · rw [txDoneEnabled_iff] at h0
      exact .inr (.inl ⟨rfl, by simpa using h0.1, by simpa using h0.2, by simp [emitTx]⟩)
    · refine .inl ⟨by simp [SameButReceive], by simp, fun _ hh => ?_⟩
      rw [txDoneEnabled_iff.mpr (by simpa using hh)] at h0
      cases h0
  | host =>
    rw [hn] at h'
    simp only [agentTurn, hostTurn, takeTurn_held, hostPresents_takeTurn] at h'
    cases hh : s.held with
    | some i => rw [hh] at h'; exact .inr (.inr (.inl ⟨rfl, i, rfl, h'⟩))
    | none =>
      rw [hh] at h'
      cases hp : hostPresents s with
      | none => rw [hp] at h'; cases h'; exact .inl ⟨by simp [SameButReceive], by simp, by simp⟩
      | some p =>
        obtain ⟨w, rest⟩ := p
        rw [hp] at h'
        exact .inr (.inr (.inr ⟨rfl, rfl, w, rest, rfl, by simpa [hh] using h'⟩))

/-- What an instruction other than TX_DONE takes for the line, run by a host that holds nothing on a transmitter
that is on: a SEND takes its byte, accepted or held; the others take nothing. -/
theorem takenBytes_of_exec {i : Instr} {s t : State} (hen : s.txEn = true) (hh : s.held = none)
    (hi : i ≠ .txDone) (h : exec i s = .next t) :
    t.txEn = true ∧ ((∃ b, i = .send b ∧ takenBytes t = takenBytes s ++ [b]) ∨
      ((∀ b, i ≠ .send b) ∧ takenBytes t = takenBytes s)) := by
  cases i with
  | init baud hs =>
    obtain ⟨-, ⟨-, rfl⟩ | ⟨-, -, rfl⟩ | ⟨-, -, rfl⟩⟩ := execInit_cases h <;>
      simp [takenBytes, inFlight, heldByte, raise, respond, hold, configure, hen, hh]
  | send b =>
    obtain ⟨-, ⟨h0, rfl⟩ | ⟨-, h1, rfl⟩ | ⟨-, h1, rfl⟩⟩ := execSend_cases h
    · simp [hen] at h0
    · simp [takenBytes, inFlight, heldByte, hold, hen, hh, h1]
    · simp [takenBytes, inFlight, heldByte, respond, hen, hh, h1]
  | pend => obtain ⟨-, rfl⟩ := execPend_cases h; simp [takenBytes, inFlight, heldByte, respond, hen]
  | stat => obtain ⟨-, rfl⟩ := execStat_cases h; simp [takenBytes, inFlight, heldByte, respond, hen]
  | clrovf => obtain ⟨-, rfl⟩ := execClrovf_cases h; simp [takenBytes, inFlight, heldByte, respond, hen]
  | read =>
    obtain ⟨-, ⟨-, rfl⟩ | ⟨-, -, rfl⟩⟩ := execRead_cases h <;>
      simp [takenBytes, inFlight, heldByte, raise, respond, hen]
  | rxEvent b =>
    obtain ⟨-, -, -, htx, -, hbusy, hshift, hwire, -, hheld, -⟩ := (sameButReceive_of_rxEvent h).1
    exact ⟨htx.trans hen, .inr ⟨by simp, by simp [takenBytes, inFlight, heldByte, hbusy, hshift, hwire, hheld]⟩⟩
  | txDone => exact absurd rfl hi

end Sys2Proof.Machine
end

