-- ==== Sys2Proof/Tests/Slice0.lean ====
section
/-! SUPPORT. Tests of the model against words and vectors of the spec (30_encoding.md R48, R52; the tables of
95_test_vectors.md), and a witness of the hypotheses of every obligation that has some. -/

namespace Sys2Proof.Tests

open Sys2Proof Sys2Proof.Machine

/-! ## Helpers -/

/-- The next state of a result, if there is one. -/
def nextOf : Result → Option State
  | .next s => some s
  | .fault _ => none
  | .refused _ => none

theorem eq_next {r : Result} {t : State} (h : nextOf r = some t) : r = .next t := by
  cases r <;> simp_all [nextOf]

/-- S1 of 95_test_vectors.md (after `INIT 9600, 0`), with any capacity and policy. -/
def ready (cap : Nat) (p : OvfPolicy) : State :=
  { State.powerOn { cap := cap, fClk := 16000000, ovfPolicy := p } with
    div := 0x0067, rxEn := true, txEn := true, rxcIe := true, txcIe := true }

/-- S1 of this hardware. -/
def s1 : State := ready 128 .overwriteOldest

/-- S1 with a byte in flight. -/
def busy : State := { s1 with txBusy := true, txShift := 0x41 }

/-- S1 with a byte in flight and a SEND held behind it (vector W7). -/
def blocked : State := { busy with held := some (.send 0x42) }

/-- The answers of a result. -/
def answers (r : Result) : Option (List Word) := (nextOf r).map (·.responses)

/-! ## Words -/

/-- The ill-formed term of each check of `Instr.wellFormed`, refused by it. -/
theorem test_wellFormed_refuses_zero_baud : (Instr.init 0 true).wellFormed = false := by decide

theorem test_decode_init : decodeTableWord 32 0x11002580 = some (.init 9600 true) := by decide

theorem test_decode_send : decodeTableWord 32 0x200000FF = some (.send 0xFF) := by decide

theorem test_decode_pend : decodeTableWord 32 0x30000000 = some .pend := by decide

theorem test_decode_read : decodeTableWord 32 0x40000000 = some .read := by decide

theorem test_decode_stat : decodeTableWord 32 0x50000000 = some .stat := by decide

theorem test_decode_clrovf : decodeTableWord 32 0x60000000 = some .clrovf := by decide

theorem test_decode_rxEvent : decodeTableWord 32 0x8000005A = some (.rxEvent 0x5A) := by decide

theorem test_decode_txDone : decodeTableWord 32 0x90000000 = some .txDone := by decide

/-- 30_encoding.md R54 and the illegal words of 95_test_vectors.md L2. -/
theorem test_illegal_words :
    [0x00000000, 0x0FFFFFFF, 0x12002580, 0x20000100, 0x30000001, 0x40000010, 0x60000001, 0xA0000000].all
      (fun w => (decodePort w).toOption.isNone) = true := by decide

/-! ## One step each, from the vectors of 95_test_vectors.md -/

/-- W1: the divisor of 9600 baud, and the enables. -/
theorem test_step_init :
    nextOf (step (State.reset.withFetchWord 32 0x10002580)) = some { s1 with responses := [0x00000000] } := by
  decide

/-- L2: the divisor of `INIT 15, 0` wraps. -/
theorem test_init_wraps : divisor 16000000 15 false = 0x0469 := by decide

/-- L2: SEND before INIT. -/
theorem test_step_send_not_init :
    nextOf (step (State.reset.withFetchWord 32 0x20000041)) =
      some { State.reset with responses := [0x80000000] } := by decide

/-- W7: a second SEND holds. -/
theorem test_send_holds : nextOf (exec (.send 0x42) busy) = some blocked := by decide

/-- L2: PEND of a full buffer. -/
theorem test_step_pend :
    answers (step ({ s1 with cnt := 128 }.withFetchWord 32 0x30000000)) = some [0x00000080] := by decide

/-- L2: READ at the last slot wraps the cursor. -/
theorem test_read_wraps :
    nextOf (exec .read { s1 with buf := [(127, 0x7E)], rc := 127, wc := 1, cnt := 2 }) =
      some { s1 with buf := [(127, 0x7E)], rc := 0, wc := 1, cnt := 1, responses := [0x0000007E] } := by decide

/-- L2: READ of an empty buffer. -/
theorem test_step_read_empty :
    answers (step (State.reset.withFetchWord 32 0x40000000)) = some [0x40000000] := by decide

/-- L2: STAT with the overflow flag and a byte in flight. -/
theorem test_step_stat :
    answers (step ({ busy with rxOvf := true }.withFetchWord 32 0x50000000)) = some [0x0000673F] := by decide

/-- L2: STAT after `INIT 1, 1`. -/
theorem test_stat_divisor :
    answers (exec .stat { s1 with div := 0x847F, u2x := true }) = some [0x00847F7C] := by decide

/-- L2: CLROVF. -/
theorem test_step_clrovf :
    nextOf (exec .clrovf { s1 with rxOvf := true }) = some { s1 with responses := [0x00000000] } := by decide

/-- L2: a byte at the last slot wraps the write cursor. -/
theorem test_step_rxEvent :
    nextOf (step ({ s1 with wc := 127, rc := 122, cnt := 5 }.withFetchWord 32 0x8000005A)) =
      some { s1 with buf := [(127, 0x5A)], wc := 0, rc := 122, cnt := 6 } := by decide

/-- L2: the count of SOURCE_COMPAT wraps. -/
theorem test_rxEvent_count_wraps :
    nextOf (exec (.rxEvent 0x02) { ready 128 .sourceCompat with cnt := 65535, wc := 3 }) =
      some { ready 128 .sourceCompat with buf := [(3, 0x02)], cnt := 0, wc := 4, rxOvf := true } := by decide

/-- L2: TX_DONE. -/
theorem test_step_txDone :
    nextOf (step (busy.withFetchWord 32 0x90000000)) = some { busy with txBusy := false, txWire := [0x41] } := by
  decide

/-! ## The assembler (30_encoding.md R56, R57) -/

theorem test_assemble_init :
    assembleLine "INIT 9600, 1 ; comment".toList = some (.host [.word 0x11002580]) := by decide

theorem test_assemble_send :
    assembleLine ("SEND ".toList ++ [apostrophe, 'A', apostrophe]) = some (.host [.word 0x20000041]) := by decide

/-- W3. -/
theorem test_assemble_string :
    assembleLine ("SENDSTR ".toList ++ [doubleQuote, 'A', 'B', doubleQuote]) =
      some (.host [.word 0x20000041, .word 0x20000042, .word 0x20000000]) := by decide

/-- The choices of log entry 19 on labels and on a `;` in a literal. -/
theorem test_assemble_label_and_semicolon :
    assembleLine "L1:  PEND ; comment".toList = some (.host [.word 0x30000000]) ∧
      assembleLine ("SEND ".toList ++ [apostrophe, ';', apostrophe]) = some (.host [.word 0x2000003B]) := by
  decide

theorem test_assemble_event : assembleLine "RX 0x48".toList = some (.event 0x80000048) := by decide

theorem test_assemble_refuses :
    assembleLine "INIT 16777216, 0".toList = none ∧ assembleLine "SEND 256".toList = none := by decide

/-! ## Witnesses

For each obligation that has hypotheses, concrete states and operands that meet all of them together, one for
each clause. -/

/-- The invariant of a state, from checks that can be decided, where nothing or a given SEND is held. -/
theorem inv_of {s : State} (hc : s.cfg.WellFormed) (hb : s.buf.wf ∧ s.buf.below s.cfg.cap)
    (hcur : s.wc < s.cfg.cap ∧ s.rc < s.cfg.cap)
    (hcnt : s.cfg.ovfPolicy ≠ .sourceCompat → s.cnt.toNat ≤ s.cfg.cap ∧ s.wc = (s.rc + s.cnt.toNat) % s.cfg.cap)
    (hw : UnreadWritten s) (hen : s.rxEn = true ∧ s.txEn = true ∧ s.rxcIe = true ∧ s.txcIe = true)
    (hh : s.held = none ∨ s.held = some (.send 0x42)) : Inv s where
  config := hc
  writeCursor := hcur.1
  readCursor := hcur.2
  canonical := hb.1
  slots := hb.2
  count := hcnt
  written := hw
  transmitter := fun _ => ⟨hen.2.1, hen.2.2.2⟩
  enables := ⟨hen.1.trans hen.2.1.symm, hen.2.2.1.trans hen.2.1.symm, hen.2.2.2.trans hen.2.1.symm⟩
  beforeInit := fun h => by rw [hen.2.1] at h; cases h
  heldCommand := fun i hi => by
    refine ⟨hen.2.1, ?_⟩
    rcases hh with h | h <;> rw [h] at hi <;> cases hi
    exact ⟨rfl, .inl ⟨_, rfl⟩⟩

/-- An empty buffer needs no written slot. -/
theorem written_empty {s : State} (h : s.rc + s.cnt.toNat = s.wc) (hw : s.wc = 0) : UnreadWritten s :=
  .inr ⟨h, fun i hi => by omega⟩

theorem inv_busy : Inv busy :=
  inv_of (by decide) (by decide) (by decide) (by decide) (written_empty rfl rfl) (by decide) (.inl rfl)

theorem inv_blocked : Inv blocked :=
  inv_of (by decide) (by decide) (by decide) (by decide) (written_empty rfl rfl) (by decide) (.inr rfl)

/-- A state with two slots, both unread and written: full under the policies that keep the count. -/
def full (p : OvfPolicy) : State := { ready 2 p with buf := [(0, 0x10), (1, 0x20)], cnt := 2 }

theorem inv_full (p : OvfPolicy) : Inv (full p) :=
  inv_of (by cases p <;> decide) (by cases p <;> decide) (by cases p <;> decide) (by cases p <;> decide)
    (.inl (by cases p <;> decide)) (by cases p <;> decide) (.inl rfl)

/-! ### Encoding -/

theorem witness_PortDecodesInTheOrderOfChecks :
    (∃ w : Word, (w.extractLsb' 28 4).toNat = 0x1 ∧ w.extractLsb' 25 3 ≠ 0 ∧ w.extractLsb' 0 24 = 0) ∧
    (∃ w : Word, (w.extractLsb' 28 4).toNat = 0x2 ∧ w.extractLsb' 8 20 = 0) ∧
    (∃ w : Word, (w.extractLsb' 28 4).toNat = 0x3 ∧ w.extractLsb' 0 28 ≠ 0) ∧
    (∃ w : Word, (w.extractLsb' 28 4).toNat = 0x4 ∧ w.extractLsb' 0 28 = 0) ∧
    (∃ w : Word, (w.extractLsb' 28 4).toNat = 0x5 ∧ w.extractLsb' 0 28 ≠ 0) ∧
    (∃ w : Word, (w.extractLsb' 28 4).toNat = 0x6 ∧ w.extractLsb' 0 28 = 0) ∧
    (∃ w : Word, (w.extractLsb' 28 4).toNat = 0x0) ∧ ∃ w : Word, (w.extractLsb' 28 4).toNat = 0x7 :=
  ⟨⟨0x12000000, by decide⟩, ⟨0x200000FF, by decide⟩, ⟨0x38000000, by decide⟩, ⟨0x40000000, by decide⟩,
    ⟨0x50000001, by decide⟩, ⟨0x60000000, by decide⟩, ⟨0x0FFFFFFF, by decide⟩, ⟨0x70000000, by decide⟩⟩

theorem witness_IllegalWordsAreThese : ∃ w e, decodePort w = .error e := ⟨0x9FFFFFFF, .reservedBits, by rfl⟩

theorem witness_DecodeOfEncode :
    (Instr.init 1 false).wellFormed = true ∧ (Instr.init 0xFFFFFF true).wellFormed = true ∧
      (Instr.send 0xFF).wellFormed = true ∧ (Instr.rxEvent 0).wellFormed = true := by decide

theorem witness_EncodeOfDecode : ∃ i, decodeWord 0x11FFFFFF = .ok i := ⟨.init 0xFFFFFF true, by rfl⟩

theorem witness_StringExpansion : (∀ b ∈ ([0x41, 0xFF] : List Byte), b ≠ 0) ∧ ∀ b ∈ ([] : List Byte), b ≠ 0 := by
  decide

/-! ### Steps -/

/-- One state for each clause; the free turn is free, so its clause needs no more than an empty script. -/
theorem witness_StepRunsTheNextInstruction :
    s1.cfg.WellFormed ∧
    nextTurn { s1 with script := [.rx 0xFF] } = .rx 0xFF ∧
    nextTurn { s1 with script := [.txDone] } = .txDone ∧
    (nextTurn { blocked with script := [.host] } = .host ∧ blocked.held = some (.send 0x42)) ∧
    nextTurn { s1 with script := [.host], hostQueue := [.word 0x30000000] } = .host ∧
    s1.held = none ∧ (decodePort 0x30000000).toOption = some .pend ∧ (decodePort 0x80000041).toOption = none ∧
    lastData s1 = 0 ∧ lastData { s1 with responses := [0x00000001] } ≠ 0 ∧ s1.hostQueue = [] ∧ s1.script = [] := by
  decide

theorem witness_PlacedWordIsRun :
    State.reset.cfg.WellFormed ∧ (Instr.init 1 true).wellFormed = true ∧ (Instr.rxEvent 0xFF).wellFormed = true := by
  decide

theorem witness_IllFormedConfigurationIsRefused :
    (State.powerOn { cap := 128, fClk := 0, ovfPolicy := .dropNewest }).cfg.fClk < 1 ∧
    (State.powerOn { cap := 0, fClk := 1, ovfPolicy := .dropNewest }).cfg.cap < 1 ∧
    (State.powerOn { cap := 65536, fClk := 1, ovfPolicy := .dropNewest }).cfg.cap > 65535 := by decide

/-! ### INIT and transmit -/

theorem witness_InitConfigures :
    s1.cfg.WellFormed ∧ (1 : BitVec 24) ≠ 0 ∧ busy.txBusy = true ∧ s1.txBusy = false := by decide

/-- The clauses of the divisor at their boundaries, all with `baud = 1`. -/
theorem witness_DivisorFormula :
    (1 : BitVec 24) ≠ 0 ∧ 15 < 16 * (1 : BitVec 24).toNat ∧ 16 * (1 : BitVec 24).toNat ≤ 16 ∧
      31 < 2 * (16 * (1 : BitVec 24).toNat) ∧ 1 ≤ 16 / (16 * (1 : BitVec 24).toNat) ∧
      1048576 / (16 * (1 : BitVec 24).toNat) ≤ 65536 := by decide

theorem witness_ReInitIsIdempotent :
    (9600 : BitVec 24) ≠ 0 ∧ s1.txBusy = false ∧ ∃ t, exec (.init 9600 false) s1 = .next t :=
  ⟨by decide, by decide, _, rfl⟩

theorem witness_SendStartsTransmission :
    State.reset.cfg.WellFormed ∧ State.reset.txEn = false ∧ (busy.txEn = true ∧ busy.txBusy = true) ∧
      s1.txEn = true ∧ s1.txBusy = false := by decide

theorem witness_TxDoneCompletesTheByte :
    busy.cfg.WellFormed ∧ busy.txBusy = true ∧ busy.txcIe = true := by decide

theorem witness_DisabledTxDoneTurnPasses :
    s1.cfg.WellFormed ∧ ¬(s1.txBusy = true ∧ s1.txcIe = true) ∧
      ¬({ busy with txcIe := false }.txBusy = true ∧ { busy with txcIe := false }.txcIe = true) := by decide

theorem witness_HeldWithoutTxDone :
    Inv { blocked with script := [Turn.host, Turn.rx 0x10, Turn.txDone] } ∧ blocked.held = some (Instr.send 0x42) ∧
      blocked.txBusy = true ∧ [Turn.host, Turn.rx 0x10, Turn.txDone] = [Turn.host, Turn.rx 0x10] ++ [Turn.txDone] ∧
      Turn.txDone ∉ [Turn.host, Turn.rx 0x10] :=
  ⟨inv_of (by decide) (by decide) (by decide) (by decide) (written_empty rfl rfl) (by decide) (.inr rfl),
    rfl, rfl, rfl, by decide⟩

theorem witness_HeldAcceptedAfterTxDone :
    Inv { blocked with script := [Turn.rx 0x10, Turn.txDone, Turn.rx 0x20, Turn.host] } ∧
      blocked.held = some (Instr.send 0x42) ∧ blocked.txBusy = true ∧
      [Turn.rx 0x10, Turn.txDone, Turn.rx 0x20, Turn.host] =
        [0x10].map Turn.rx ++ Turn.txDone :: [0x20].map Turn.rx ++ Turn.host :: [] :=
  ⟨inv_of (by decide) (by decide) (by decide) (by decide) (written_empty rfl rfl) (by decide) (.inr rfl),
    rfl, rfl, rfl⟩

/-- The clause of a held INIT. -/
theorem witness_HeldAcceptedAfterTxDone_init :
    Inv { busy with held := some (.init 1 true), script := [.txDone, .host] } where
  config := by decide
  writeCursor := by decide
  readCursor := by decide
  canonical := by decide
  slots := by decide
  count := fun _ => by decide
  written := written_empty rfl rfl
  transmitter := fun _ => by decide
  enables := ⟨rfl, rfl, rfl⟩
  beforeInit := fun h => by cases h
  heldCommand := fun i hi => by cases hi; exact ⟨rfl, rfl, .inr ⟨_, _, rfl⟩⟩

/-- A host with nothing to present and an idle transmitter: nothing starts another byte. -/
def Idle (s : State) : Prop := s.txBusy = false ∧ s.hostQueue = [] ∧ s.held = none

theorem takeTurn_idle {s : State} (h : Idle s) : Idle (takeTurn s) := by simpa [Idle] using h

theorem step_idle {s t : State} (h : Idle s) (e : step s = .next t) : Idle t := by
  have hc := wellFormed_of_step e
  have hp : hostPresents s = none := by simp [hostPresents, h.2.1]
  cases hi : issued s with
  | none =>
    obtain ⟨-, -, ⟨-, e'⟩ | ⟨w, rest, er, hq, -⟩⟩ := step_of_not_issued hc hi
    · rw [e'] at e; cases e; exact takeTurn_idle h
    · rw [hp] at hq; cases hq
  | some i =>
    rw [step_of_issued hc hi] at e
    unfold issued at hi
    cases hn : nextTurn s with
    | host => simp [hn, h.2.2, hp] at hi
    | rx b =>
      simp only [hn, Option.some.injEq] at hi
      subst hi
      have hf : fetched s = takeTurn s := by unfold fetched; rw [hn]
      rw [hf] at e
      have ht := takeTurn_idle h
      obtain ⟨-, ⟨-, rfl⟩ | ⟨-, -, -, rfl⟩ | ⟨-, -, -, -, rfl⟩ | ⟨-, -, -, rfl⟩ | ⟨-, -, -, -, rfl⟩⟩ :=
        execRxEvent_cases e <;> exact ht
    | txDone =>
      simp only [hn, Option.some.injEq] at hi
      subst hi
      have hf : fetched s = takeTurn s := by unfold fetched; rw [hn]
      rw [hf] at e
      have ht := takeTurn_idle h
      obtain ⟨-, ⟨-, rfl⟩ | ⟨-, rfl⟩⟩ := execTxDone_cases e
      · exact ⟨rfl, ht.2⟩
      · exact ht

theorem runSteps_idle (n : Nat) {s t : State} (h : Idle s) (e : runSteps n s = .next t) : Idle t := by
  induction n generalizing s with
  | zero => cases e; exact h
  | succ n ih =>
    unfold runSteps at e
    split at e
    · exact ih (step_idle h ‹_›) e
    · cases e
    · cases e

/-- A run that meets TX_COMPLETES: the byte in flight departs at the next turn, and no other ever starts. -/
theorem witness_InFlightDepartsUnderTxCompletes :
    Inv { busy with script := [.txDone] } ∧ { busy with script := [.txDone] }.txBusy = true ∧
      TxCompletes { busy with script := [.txDone] } := by
  refine ⟨inv_of (by decide) (by decide) (by decide) (by decide) (written_empty rfl rfl) (by decide) (.inl rfl),
    rfl, fun n t e ht => ?_⟩
  cases n with
  | zero => cases e; exact ⟨0, _, rfl, rfl⟩
  | succ n =>
    have e' : step { busy with script := [.txDone] } = .next { busy with txBusy := false, txWire := [0x41] } :=
      eq_next (by decide)
    rw [runSteps, e'] at e
    have := (runSteps_idle n ⟨rfl, rfl, rfl⟩ e).1
    simp [txDoneEnabled, this] at ht

/-- Both clauses, an array and a text with its terminator, in turns where the second SEND is presented early and
held, with bytes and an idle TX turn around. -/
theorem witness_SendArrayAndStringTransmitExactly :
    Inv { s1 with
      hostQueue := itemsOf (sendString [0x41]),
      script := [.txDone, .host, .rx 0x10, .host, .txDone, .rx 0x20, .host, .txDone] } ∧
    s1.txEn = true ∧ s1.txBusy = false ∧ s1.held = none ∧ Turn.host ∉ [Turn.txDone] ∧
    (∀ r ∈ [([Turn.rx 0x10, Turn.host], [Turn.rx 0x20]), ([], [])], Turn.txDone ∉ r.1 ∧ Turn.host ∉ r.2) ∧
    [Turn.txDone] ++ ([([Turn.rx 0x10, Turn.host], [Turn.rx 0x20]), ([], [])].flatMap
        fun r => Turn.host :: r.1 ++ Turn.txDone :: r.2) ++ ([] : List Turn) =
      [.txDone, .host, .rx 0x10, .host, .txDone, .rx 0x20, .host, .txDone] ∧
    itemsOf (sendString [0x41]) = itemsOf (sendArray [0x41, 0x00]) ∧
    (([0x41] : List Byte).takeWhile (· != 0)).length + 1 = 2 :=
  ⟨inv_of (by decide) (by decide) (by decide) (by decide) (written_empty rfl rfl) (by decide) (.inl rfl),
    by decide⟩

theorem sendsNothing_stat : SendsNothing [.word 0x50000000] := by
  intro w b h
  simp only [List.mem_singleton, HostItem.word.injEq] at h
  subst h
  rw [show decodePort 0x50000000 = .ok .stat by rfl]
  simp

/-- The tail of program P1: the terminator is sent, STAT is presented while it is in flight, and then its TX_DONE
comes. Nothing is left of the program, and no SEND followed. -/
theorem witness_ExpansionsDepartInEveryRun :
    let s := { s1 with script := [.host, .host, .txDone], hostQueue := itemsOf (sendString []) ++ [.word 0x50000000] }
    s.txEn = true ∧ s.txBusy = false ∧ s.held = none ∧
      s.hostQueue = itemsOf (sendArray [0x00]) ++ [.word 0x50000000] ∧ SendsNothing [.word 0x50000000] ∧
      ∃ t, runSteps 3 s = .next t ∧ t.hostQueue = [] ∧ t.txBusy = false ∧ heldByte t = [] :=
  ⟨rfl, rfl, rfl, rfl, sendsNothing_stat, _, eq_next (t := { s1 with
    txShift := 0x00, txWire := [0x00], responses := [0x00000000, 0x0000673D] }) (by decide), rfl, rfl, rfl⟩

/-- The other clauses: a SEND still to be presented, and one with nothing of what follows presented yet. -/
theorem witness_ExpansionsDepartInEveryRun_before :
    let s := { s1 with script := [.host, .txDone], hostQueue := itemsOf (sendArray [0x00]) ++ [.word 0x50000000] }
    [HostItem.word 0x50000000].length < s.hostQueue.length ∧
      ∃ t, runSteps 2 s = .next t ∧ t.hostQueue = [.word 0x50000000] ∧ t.held = none ∧ t.txBusy = false :=
  ⟨by decide, _, eq_next (t := { s1 with
    txShift := 0x00, txWire := [0x00], hostQueue := [.word 0x50000000], responses := [0x00000000] })
    (by decide), rfl, rfl, rfl⟩

/-- A program of one SEND, whose turns meet both premises. -/
def oneSend : State := { s1 with script := [.host, .txDone], hostQueue := [.word 0x20000041] }

/-- That program after its first turn, and after its second. -/
def oneSendBusy : State := { busy with script := [.txDone], responses := [0x00000000] }

def oneSendDone : State := { busy with txBusy := false, txWire := [0x41], responses := [0x00000000] }

theorem oneSend_first : step oneSend = .next oneSendBusy := eq_next (by decide)

theorem oneSend_both : runSteps 2 oneSend = .next oneSendDone :=
  (runSteps_add 1 1 (runSteps_one oneSend_first)).trans (runSteps_one (eq_next (by decide)))

/-- After its two turns nothing is left to do. -/
theorem oneSend_idle (n : Nat) {t : State} (e : runSteps (n + 2) oneSend = .next t) : Idle t := by
  rw [Nat.add_comm, runSteps_add 2 n oneSend_both] at e
  exact runSteps_idle n ⟨rfl, rfl, rfl⟩ e

theorem witness_HostProgramEnds :
    Inv oneSend ∧ (∀ x ∈ oneSend.hostQueue, ∃ w, x = .word w) ∧ TxCompletes oneSend ∧ HostProceeds oneSend := by
  refine ⟨inv_of (by decide) (by decide) (by decide) (by decide) (written_empty rfl rfl) (by decide) (.inl rfl),
    fun x hx => ⟨_, List.mem_singleton.mp hx⟩, fun n t e ht => ?_, fun n t e ht => ?_⟩
  · match n with
    | 0 => cases e; cases ht
    | 1 =>
      rw [runSteps_one oneSend_first] at e; cases e
      exact ⟨0, _, rfl, rfl⟩
    | n + 2 => simp [txDoneEnabled, (oneSend_idle n e).1] at ht
  · match n with
    | 0 => cases e; exact ⟨0, _, rfl, rfl⟩
    | 1 => rw [runSteps_one oneSend_first] at e; cases e; cases ht
    | n + 2 =>
      obtain ⟨-, hq, hh⟩ := oneSend_idle n e
      simp [hostHasStep, hq, hh] at ht

/-- A run with a final observation, which is not there at its start; and a step after the end that changes it. -/
theorem witness_EndOfARun :
    (∃ o, FinalObservation oneSend o ∧ o.txWire = [0x41]) ∧
      RunEnded { s1 with script := [.rx 0x10] } ∧ ∃ t, step { s1 with script := [.rx 0x10] } = .next t ∧
        t.observation ≠ { s1 with script := [.rx 0x10] }.observation := by
  refine ⟨⟨oneSendDone.observation, ⟨2, oneSendDone, ⟨oneSend_both, ⟨rfl, rfl, rfl⟩, fun m hm u hu => ?_⟩, rfl⟩, rfl⟩,
    ⟨rfl, rfl, rfl⟩, _, eq_next (t := { s1 with buf := [(0, 0x10)], cnt := 1, wc := 1 }) (by decide), by decide⟩
  match m with
  | 0 => cases hu; intro h; cases h.1
  | 1 => rw [runSteps_one oneSend_first] at hu; cases hu; intro h; cases h.2.2

/-! ### Receive -/

theorem witness_RxEventLostWhenDisabled :
    State.reset.cfg.WellFormed ∧ State.reset.rxEn = false ∧ { s1 with rxcIe := false }.rxcIe = false := by decide

/-- The last free slot. -/
theorem witness_RxEventStores :
    let s := { s1 with wc := 127, rc := 0, cnt := 127 }
    s.cfg.WellFormed ∧ s.rxEn = true ∧ s.rxcIe = true ∧ s.cnt.toNat < s.cfg.cap ∧ s.wc < s.cfg.cap := by decide

theorem witness_RxEventOverflows :
    ∀ p ∈ [OvfPolicy.overwriteOldest, .dropNewest, .sourceCompat],
      (full p).cfg.ovfPolicy = p ∧ (full p).cfg.WellFormed ∧ (full p).rxEn = true ∧ (full p).rxcIe = true ∧
        (full p).cfg.cap ≤ (full p).cnt.toNat ∧ (full p).wc < (full p).cfg.cap := by decide

theorem witness_PendAnswersTheCount : (full .sourceCompat).cfg.WellFormed := by decide

theorem witness_ReadConsumesTheByte :
    s1.cfg.WellFormed ∧ s1.cnt = 0 ∧ (full .dropNewest).cnt ≠ 0 ∧
      { full .dropNewest with rc := 1 }.rc < { full .dropNewest with rc := 1 }.cfg.cap := by decide

/-- READ; a RX_EVENT on a buffer that is not full; and on a full one under the two policies that store. -/
theorem witness_SlotOutOfRangeFaults :
    (let s := { ready 2 .dropNewest with rc := 2, wc := 2, cnt := 1 }
     s.cfg.WellFormed ∧ s.cfg.cap ≤ s.rc ∧ s.cnt ≠ 0 ∧ s.cfg.cap ≤ s.wc ∧ s.rxEn = true ∧ s.rxcIe = true ∧
      s.cnt.toNat < s.cfg.cap) ∧
    ∀ p ∈ [OvfPolicy.overwriteOldest, .sourceCompat],
      let s := { full p with wc := 2 }
      s.cfg.WellFormed ∧ s.cfg.cap ≤ s.wc ∧ s.rxEn = true ∧ s.rxcIe = true ∧ s.cfg.cap ≤ s.cnt.toNat ∧
        (s.cfg.ovfPolicy = .overwriteOldest ∨ s.cfg.ovfPolicy = .sourceCompat) := by decide

theorem witness_UnreadBytesFormAQueue :
    Inv (full .overwriteOldest) ∧ (full .overwriteOldest).cfg.ovfPolicy ≠ .sourceCompat ∧
      (∃ t, exec .read (full .overwriteOldest) = .next t) ∧ (full .overwriteOldest).cnt ≠ 0 ∧
      (∃ t, exec (.rxEvent 0x30) (full .overwriteOldest) = .next t) ∧ (full .overwriteOldest).rxEn = true :=
  ⟨inv_full _, by decide, ⟨_, rfl⟩, by decide, ⟨_, rfl⟩, rfl⟩

theorem witness_ReceiveThenDrain :
    let s := { ready 2 .dropNewest with
      wc := 1, rc := 1, script := [Turn.rx 0x10, Turn.rx 0x20, Turn.host, Turn.host, Turn.host, Turn.host],
      hostQueue := [.word 0x30000000, .word 0x40000000, .word 0x40000000, .word 0x30000000] }
    s.cfg.WellFormed ∧ s.rxEn = true ∧ s.rxcIe = true ∧ s.cnt = 0 ∧ s.wc < s.cfg.cap ∧ s.rc = s.wc ∧
      [0x10, 0x20].length ≤ s.cfg.cap ∧ s.held = none ∧
      s.hostQueue = HostItem.word (encode .pend) :: List.replicate 2 (HostItem.word (encode .read)) ++
        [HostItem.word (encode .pend)] ∧
      s.script = ([0x10, 0x20] : List Byte).map Turn.rx ++ List.replicate 4 Turn.host ++ [] := by decide

/-- One slot, two bytes in, then the host's PEND, `n` READs and one more. -/
def twoIntoOne (p : OvfPolicy) (n : Nat) : State :=
  { ready 1 p with
    script := [.rx 0x10, .rx 0x20, .host, .host] ++ List.replicate n .host
    hostQueue := .word 0x30000000 :: .word 0x40000000 :: List.replicate n (.word 0x40000000) }

/-- Each policy, with as many READs as it leaves readable. -/
theorem witness_OverflowOutcomePerPolicy :
    ([0x10, 0x20] : List Byte).tail.length = 1 ∧ (([0x10, 0x20] : List Byte).take 1).length = 1 ∧
    (([0x10, 0x20] : List Byte).drop 1 ++ ([0x10, 0x20] : List Byte).tail).length = 2 ∧ 1 < 65535 ∧
    ∀ x ∈ [(OvfPolicy.overwriteOldest, 1), (.dropNewest, 1), (.sourceCompat, 2)],
      let s := twoIntoOne x.1 x.2
      s.cfg.WellFormed ∧ s.rxEn = true ∧ s.rxcIe = true ∧ s.cnt = 0 ∧ s.wc = 0 ∧ s.rc = 0 ∧ s.held = none ∧
        ([0x10, 0x20] : List Byte).length = s.cfg.cap + 1 ∧
        s.hostQueue = HostItem.word (encode .pend) :: List.replicate (x.2 + 1) (HostItem.word (encode .read)) ∧
        s.script = ([0x10, 0x20] : List Byte).map Turn.rx ++ List.replicate (x.2 + 2) Turn.host ++ [] := by decide

/-! ### Runs -/

/-- `n` steps of a run with its history, in a form that can be decided. -/
def track : Nat → State → History → Option (State × History)
  | 0, s, h => some (s, h)
  | n + 1, s, h =>
    match nextOf (step s) with
    | some t => track n t (h.afterStep s)
    | none => none

theorem run_of_track (n : Nat) {s t : State} {h k : History} (r : Run s h) (e : track n s h = some (t, k)) :
    Run t k := by
  induction n generalizing s h with
  | zero => simp only [track, Option.some.injEq, Prod.mk.injEq] at e; obtain ⟨rfl, rfl⟩ := e; exact r
  | succ n ih =>
    unfold track at e
    split at e
    · exact ih (.step r (eq_next ‹_›)) e
    · cases e

/-- The start of a run of this hardware under a policy. -/
def started (p : OvfPolicy) (program : List HostItem) (turns : List Turn) : State :=
  { State.powerOn { cap := 128, fClk := 16000000, ovfPolicy := p } with
    hostQueue := program, script := turns, txShift := 0xFF, draws := 7 }

theorem run_started (p : OvfPolicy) (program : List HostItem) (turns : List Turn) :
    Run (started p program turns) .start :=
  .powerOn _ (show 1 ≤ 16000000 ∧ 1 ≤ 128 ∧ 128 ≤ 65535 by decide) _ _ _ _

/-- INIT, a SEND, two bytes in, one READ: a run that the statements about runs speak of, per policy. -/
theorem run_witness (p : OvfPolicy) :
    ∃ s h, Run s h ∧ s.cfg.ovfPolicy = p ∧ s.txBusy = true ∧ h.sentBytes = [0x41] ∧ h.overflowed = false ∧
      s.cnt = 1 ∧ h.rxBytes = [0x10, 0x20] ∧ h.readBytes = [0x10] := by
  have e : ∃ x ∈ track 5
      (started p [.word 0x10002580, .word 0x20000041, .word 0x40000000] [.host, .host, .rx 0x10, .rx 0x20, .host])
      .start, x.1.cfg.ovfPolicy = p ∧ x.1.txBusy = true ∧ x.2.sentBytes = [0x41] ∧ x.2.overflowed = false ∧
        x.1.cnt = 1 ∧ x.2.rxBytes = [0x10, 0x20] ∧ x.2.readBytes = [0x10] := by
    cases p <;> decide
  obtain ⟨⟨s, h⟩, hx, hs⟩ := e
  exact ⟨s, h, run_of_track 5 (run_started p _ _) hx, hs⟩

theorem witness_WireIsTheSentBytesInOrder : ∃ s h, Run s h ∧ s.txBusy = true ∧ h.sentBytes = [0x41] :=
  let ⟨s, h, r, _, b, c, _⟩ := run_witness .overwriteOldest
  ⟨s, h, r, b, c⟩

theorem witness_InFlightOnlyWithTransmitterOn : ∃ s h, Run s h ∧ s.txBusy = true :=
  let ⟨s, h, r, _, b, _⟩ := run_witness .overwriteOldest
  ⟨s, h, r, b⟩

theorem witness_FifoWithoutOverflow : ∃ s h, Run s h ∧ h.overflowed = false ∧ h.readBytes = [0x10] :=
  let ⟨s, h, r, _, _, _, o, _, _, d⟩ := run_witness .overwriteOldest
  ⟨s, h, r, o, d⟩

theorem witness_CountAndCursorsInEveryRun :
    (∃ s h, Run s h ∧ s.cfg.ovfPolicy ≠ .sourceCompat ∧ s.cnt = 1) ∧
      ∃ s h, Run s h ∧ s.cfg.ovfPolicy = .sourceCompat ∧ s.cnt = 1 :=
  let ⟨s, h, r, p, _, _, _, c, _⟩ := run_witness .dropNewest
  let ⟨s', h', r', p', _, _, _, c', _⟩ := run_witness .sourceCompat
  ⟨⟨s, h, r, by simp [p], c⟩, ⟨s', h', r', p', c'⟩⟩

theorem witness_ReadsReturnWrittenSlots : ∃ s h, Run s h ∧ s.cnt ≠ 0 :=
  let ⟨s, h, r, _, _, _, _, c, _⟩ := run_witness .sourceCompat
  ⟨s, h, r, by rw [c]; decide⟩

theorem witness_BeforeInit : ∃ s h, Run s h ∧ s.txEn = false :=
  ⟨_, _, run_started .overwriteOldest [] [], rfl⟩

/-- Two bytes pending, two steps of which one is a READ, which leaves one to read. -/
theorem witness_PendingReadsSucceed :
    Inv { full .dropNewest with script := [.rx 0x30, .host], hostQueue := [.word 0x40000000] } ∧
    (∃ t, runSteps 2 { full .dropNewest with script := [.rx 0x30, .host], hostQueue := [.word 0x40000000] } =
      .next t) ∧
    readsIssued 2 { full .dropNewest with script := [.rx 0x30, .host], hostQueue := [.word 0x40000000] } <
      (full .dropNewest).cnt.toNat :=
  ⟨inv_of (by decide) (by decide) (by decide) (by decide) (.inl (by decide)) (by decide) (.inl rfl),
    ⟨_, eq_next (t := { full .dropNewest with cnt := 1, rc := 1, rxOvf := true, responses := [0x00000010] })
      (by decide)⟩, by decide⟩

theorem witness_RecvNeverReadsEmpty :
    Inv { full .dropNewest with responses := [0x00000002], script := [.host], hostQueue := [.poll] } ∧
    RecvSound { full .dropNewest with responses := [0x00000002], script := [.host], hostQueue := [.poll] } ∧
    (∃ t, step { full .dropNewest with responses := [0x00000002], script := [.host], hostQueue := [.poll] } =
      .next t) ∧
    issued { full .dropNewest with responses := [0x00000002], script := [.host], hostQueue := [.poll] } =
      some .read :=
  ⟨inv_of (by decide) (by decide) (by decide) (by decide) (.inl (by decide)) (by decide) (.inl rfl),
    ⟨by decide, fun _ => ⟨rfl, fun _ => by decide⟩⟩,
    ⟨_, eq_next (t := { full .dropNewest with cnt := 1, rc := 1, responses := [0x00000002, 0x00000010] })
      (by decide)⟩, by decide⟩

/-! ### Status, control and the whole machine -/

theorem witness_StatReportsEveryField : s1.cfg.WellFormed := by decide

theorem witness_ClrovfClearsOnlyTheFlag :
    (full .sourceCompat).cfg.WellFormed ∧ (full .sourceCompat).rxEn = true ∧ (full .sourceCompat).rxcIe = true ∧
      (full .sourceCompat).cfg.cap ≤ (full .sourceCompat).cnt.toNat ∧
      (full .sourceCompat).wc < (full .sourceCompat).cfg.cap := by decide

/-- The flag set, and the flag cleared. -/
theorem witness_StickyOverflowFlag :
    (∃ t, step { full .dropNewest with script := [.rx 0x30] } = .next t ∧ t.rxOvf = true) ∧
      ∃ t, step { full .dropNewest with
        rxOvf := true, script := [.host], hostQueue := [.word 0x60000000] } = .next t ∧ t.rxOvf = false :=
  ⟨⟨_, eq_next (t := { full .dropNewest with rxOvf := true }) (by decide), rfl⟩,
    ⟨_, eq_next (t := { full .dropNewest with responses := [0x00000000] }) (by decide), rfl⟩⟩

/-- The three answers that are not OK. -/
theorem witness_NonOkAnswersChangeNothing :
    exec .read s1 = .next { s1 with responses := s1.responses ++ [0x40000000] } ∧
    exec (.send 0x41) State.reset = .next { State.reset with responses := State.reset.responses ++ [0x80000000] } ∧
    exec (.init 0 true) busy = .next { busy with responses := busy.responses ++ [0xC0000000] } ∧
    BitVec.extractLsb' 30 2 0x40000000#32 ≠ 0b00#2 ∧ BitVec.extractLsb' 30 2 0x80000000#32 ≠ 0b00#2 ∧
    BitVec.extractLsb' 30 2 0xC0000000#32 ≠ 0b00#2 :=
  ⟨eq_next (by decide), eq_next (by decide), eq_next (by decide), by decide⟩

/-- An event, a held command, an answered one. -/
theorem witness_OneAnswerPerCommand :
    (exec .txDone s1 = .next s1 ∧ Instr.txDone.isEvent = true) ∧
      (exec (.send 0x42) busy = .next blocked ∧ (Instr.send 0x42).isEvent = false) ∧
      ∃ t, exec .pend s1 = .next t :=
  ⟨⟨eq_next (by decide), rfl⟩, ⟨eq_next (by decide), rfl⟩, _, rfl⟩

/-- A step that changes the fields of INIT, one that moves the read cursor by overwriting, and CLROVF. -/
theorem witness_OnlyTheNamedWritersWrite :
    (∃ t, exec (.init 9600 true) s1 = .next t ∧ t.u2x ≠ s1.u2x) ∧
      (∃ t, exec (.rxEvent 0x30) (full .overwriteOldest) = .next t ∧ t.rc ≠ (full .overwriteOldest).rc) ∧
      ∃ t, exec .clrovf { s1 with rxOvf := true } = .next t ∧ t.rxOvf ≠ true :=
  ⟨⟨_, rfl, by decide⟩, ⟨_, rfl, by decide⟩, ⟨_, rfl, by decide⟩⟩

theorem witness_OnlyTheWriteCursorSlotChanges :
    ∃ t, exec (.rxEvent 0x30) (full .overwriteOldest) = .next t ∧
      t.buf.read 0 ≠ (full .overwriteOldest).buf.read 0 := ⟨_, rfl, by decide⟩

theorem witness_PowerOnMeetsTheInvariant :
    Config.WellFormed { cap := 1, fClk := 1, ovfPolicy := .sourceCompat } ∧
      Config.WellFormed { cap := 65535, fClk := 1, ovfPolicy := .dropNewest } := by decide

theorem witness_StepKeepsTheInvariant : Inv { busy with script := [.txDone] } ∧
    ∃ t, step { busy with script := [.txDone] } = .next t :=
  ⟨witness_InFlightDepartsUnderTxCompletes.1, _,
    eq_next (t := { busy with txBusy := false, txWire := [0x41] }) (by decide)⟩

theorem witness_NeverFaultsNorRefuses : Inv busy ∧ Inv blocked ∧ Inv (full .sourceCompat) :=
  ⟨inv_busy, inv_blocked, inv_full _⟩

/-- A SEND from an idle transmitter: the clause that ends with a byte in flight. -/
theorem witness_IdleShiftIsUnobservable :
    s1.txBusy = false ∧
      ∃ t, step { s1 with script := [.host], hostQueue := [.word 0x20000041] } = .next t ∧ t.txBusy = true :=
  ⟨rfl, _, eq_next (t := { busy with responses := [0x00000000] }) (by decide), rfl⟩

theorem witness_RepeatedReportsAgree :
    (∃ t u, exec .pend s1 = .next t ∧ exec .pend t = .next u) ∧
      ∃ t u, exec .stat s1 = .next t ∧ exec .stat t = .next u := ⟨⟨_, _, rfl, rfl⟩, ⟨_, _, rfl, rfl⟩⟩

theorem witness_LineEventsCommute :
    ∃ t u, exec (.rxEvent 0x10) busy = .next t ∧ exec .txDone t = .next u ∧ t ≠ busy ∧ u ≠ t :=
  ⟨_, _, rfl, rfl, by decide, by decide⟩

end Sys2Proof.Tests
end

/-! SUPPORT. What a step does by whose turn it is, what a RX_EVENT and an accepted command do where they are
bound to answer, and the obligations about the scope of the model (00_scope.md). -/

namespace Sys2Proof.Machine

/-! ### A step, by whose turn it is -/

section Turns

variable {s : State}

/-- In a legal configuration a step is the turn of the agent that is next. -/
theorem step_of_nextTurn {t : Turn} (hc : s.cfg.WellFormed) (hn : nextTurn s = t) :
    step s = agentTurn t (takeTurn s) := by
  rw [step, turnStep, onLegalConfig_of_wellFormed hc, hn]

/-- At the host's turn a held command is retried (R12). -/
theorem step_of_held {i : Instr} (hc : s.cfg.WellFormed) (hn : nextTurn s = .host) (hh : s.held = some i) :
    step s = exec i { takeTurn s with held := none } := by
  rw [step_of_nextTurn hc hn, agentTurn, hostTurn, takeTurn_held, hh]

/-- At the host's turn, with nothing held, the host presents its next word (R46). -/
theorem step_of_hostPresents {w : Word} {rest : List HostItem} (hc : s.cfg.WellFormed)
    (hn : nextTurn s = .host) (hh : s.held = none) (hp : hostPresents s = some (w, rest)) :
    step s = presentWord w { takeTurn s with hostQueue := rest } := by
  rw [step_of_nextTurn hc hn, agentTurn, hostTurn]
  simp only [takeTurn_held, hh, hostPresents_takeTurn, hp]

/-- The turn of a host that holds nothing and has nothing to present passes (log entry 8). -/
theorem step_of_hostPresents_none (hc : s.cfg.WellFormed) (hn : nextTurn s = .host) (hh : s.held = none)
    (hp : hostPresents s = none) : step s = .next (takeTurn s) := by
  rw [step_of_nextTurn hc hn, agentTurn, hostTurn]
  simp only [takeTurn_held, hh, hostPresents_takeTurn, hp]

end Turns

/-! ### What the port makes of a word -/

theorem presentWord_of_ok {w : Word} {i : Instr} (h : decodePort w = .ok i) (s : State) :
    presentWord w s = exec i s := by
  simp only [presentWord, h]

theorem presentWord_of_error {w : Word} {e : DecodeError} (h : decodePort w = .error e) (s : State) :
    presentWord w s = .next (raise .illegal s) := by
  simp only [presentWord, h]

theorem decodePort_encode_pend : decodePort (encode .pend) = .ok .pend := rfl

theorem decodePort_encode_read : decodePort (encode .read) = .ok .read := rfl

/-! ### What the host presents, by the head of its stream (R57) -/

section Presents

variable {s : State} {rest : List HostItem}

theorem hostPresents_of_nil (h : s.hostQueue = []) : hostPresents s = none := by
  simp only [hostPresents, h]

theorem hostPresents_of_word {w : Word} (h : s.hostQueue = .word w :: rest) :
    hostPresents s = some (w, rest) := by
  simp only [hostPresents, h]

theorem hostPresents_of_recv (h : s.hostQueue = .recv :: rest) :
    hostPresents s = some (encode .pend, .poll :: rest) := by
  simp only [hostPresents, h]

theorem hostPresents_of_poll_zero (h : s.hostQueue = .poll :: rest) (h0 : lastData s = 0) :
    hostPresents s = some (encode .pend, .poll :: rest) := by
  simp only [hostPresents, h, h0, if_pos]

theorem hostPresents_of_poll_ne_zero (h : s.hostQueue = .poll :: rest) (h0 : lastData s ≠ 0) :
    hostPresents s = some (encode .read, rest) := by
  simp only [hostPresents, h, if_neg h0]

end Presents

/-- With no turn placed, the next turn is a free value and taking it counts it (log entry 6). -/
theorem nextTurn_of_script_nil {s : State} (h : s.script = []) : nextTurn s = Config.freeTurn s.draws := by
  simp only [nextTurn, h]

theorem takeTurn_of_script_nil {s : State} (h : s.script = []) :
    takeTurn s = { s with draws := s.draws + 1 } := by
  simp only [takeTurn, h]

/-- Settles O11: the turn's agent decides the clause, and at a host turn what is held or heads the stream. -/
theorem stepRunsTheNextInstruction : Obligations.StepRunsTheNextInstruction := by
  intro s hc
  have present {w rest} (hn : nextTurn s = .host) (hh : s.held = none)
      (hp : hostPresents s = some (w, rest)) {i} (hd : decodePort w = .ok i) :
      step s = exec i { takeTurn s with hostQueue := rest } := by
    rw [step_of_hostPresents hc hn hh hp, presentWord_of_ok hd]
  refine ⟨fun b hn => step_of_nextTurn hc hn, fun hn => step_of_nextTurn hc hn,
    fun i hn hh => step_of_held hc hn hh,
    fun w rest i hn hh hq hd => present hn hh (hostPresents_of_word hq) hd,
    fun w rest e hn hh hq hd => ?_,
    fun rest hn hh hq => present hn hh (hostPresents_of_recv hq) decodePort_encode_pend,
    fun rest hn hh hq h0 => present hn hh (hostPresents_of_poll_zero hq h0) decodePort_encode_pend,
    fun rest hn hh hq h0 => present hn hh (hostPresents_of_poll_ne_zero hq h0) decodePort_encode_read,
    fun hn hh hq => step_of_hostPresents_none hc hn hh (hostPresents_of_nil hq),
    fun t ts hs => ⟨nextTurn_of_script s hs, takeTurn_of_script s hs⟩,
    fun hs => ⟨nextTurn_of_script_nil hs, takeTurn_of_script_nil hs⟩⟩
  rw [step_of_hostPresents hc hn hh (hostPresents_of_word hq), presentWord_of_error hd]
  simp [raise, respond]

/-! ### The configuration and reset -/

/-- Every meaning is guarded by the legal configuration (R7). -/
theorem exec_of_illFormed {s : State} (h : ¬s.cfg.WellFormed) (i : Instr) :
    exec i s = .refused .illFormedConfig := by
  cases i <;> exact onLegalConfig_of_illFormed h _

/-- Settles O13: each of the three bounds of R7 makes the configuration ill-formed. -/
theorem illFormedConfigurationIsRefused : Obligations.IllFormedConfigurationIsRefused := by
  intro s hbound
  have h : ¬s.cfg.WellFormed := by rintro ⟨h1, h2, h3⟩; omega
  exact ⟨onLegalConfig_of_illFormed h _, exec_of_illFormed h⟩

/-- Settles O14: each field is one that `State.powerOn` writes out. -/
theorem resetLeavesTheSpecifiedValues : Obligations.ResetLeavesTheSpecifiedValues :=
  ⟨rfl, fun _ => ⟨rfl, rfl, rfl, rfl, rfl, rfl, rfl, rfl, rfl, rfl, rfl, rfl, rfl, rfl, rfl⟩⟩

/-! ### Bytes that arrive leave the host and the transmitter alone -/

theorem SameButReceive.trans {s t u : State} (h : SameButReceive s t) (k : SameButReceive t u) :
    SameButReceive s u := by
  obtain ⟨h1, h2, h3, h4, h5, h6, h7, h8, h9, h10, h11⟩ := h
  obtain ⟨k1, k2, k3, k4, k5, k6, k7, k8, k9, k10, k11⟩ := k
  exact ⟨k1.trans h1, k2.trans h2, k3.trans h3, k4.trans h4, k5.trans h5, k6.trans h6, k7.trans h7,
    k8.trans h8, k9.trans h9, k10.trans h10, k11.trans h11⟩

/-- What makes the block answer whatever byte arrives: a write cursor that names a slot. -/
def TakesBytes (s : State) : Prop := s.cfg.WellFormed ∧ s.wc < s.cfg.cap

theorem nextIndex_lt {s : State} (h : s.cfg.WellFormed) (x : Nat) : nextIndex s x < s.cfg.cap :=
  Nat.mod_lt _ h.2.1

/-- The full branch answers under each policy (R69). -/
theorem rxFull_isOk {b : Byte} {s : State} (hw : s.wc < s.cfg.cap) : ∃ t, rxFull b s = .ok t := by
  unfold rxFull overflowData
  cases hp : s.cfg.ovfPolicy <;> simp [bufWrite_of_lt, hw, Except.map]

/-- A RX_EVENT whose write cursor names a slot answers (R80). -/
theorem exec_rxEvent_isNext {s : State} (h : TakesBytes s) (b : Byte) : ∃ t, exec (.rxEvent b) s = .next t := by
  obtain ⟨hc, hw⟩ := h
  change ∃ t, execRxEvent b s = .next t
  rw [execRxEvent, onLegalConfig_of_wellFormed hc]
  split_ifs with hoff hfull
  · exact ⟨s, rfl⟩
  · obtain ⟨t, ht⟩ := rxFull_isOk (b := b) hw
    exact ⟨t, by rw [ht, complete]⟩
  · rw [rxStore, bufWrite_of_lt hw]
    exact ⟨_, rfl⟩

/-- A RX_EVENT keeps the write cursor on a slot. -/
theorem takesBytes_of_rxEvent {b : Byte} {s t : State} (h : TakesBytes s) (e : exec (.rxEvent b) s = .next t) :
    TakesBytes t := by
  obtain ⟨hc, ⟨-, rfl⟩ | ⟨-, -, -, rfl⟩ | ⟨-, -, -, -, rfl⟩ | ⟨-, -, -, rfl⟩ | ⟨-, -, -, -, rfl⟩⟩ :=
    execRxEvent_cases e
  · exact h
  · exact ⟨hc, nextIndex_lt hc _⟩
  · exact ⟨hc, nextIndex_lt hc _⟩
  · exact h
  · exact ⟨hc, nextIndex_lt hc _⟩

/-- One step, then the rest. -/
theorem runSteps_succ {s t : State} (h : step s = .next t) (n : Nat) : runSteps (n + 1) s = runSteps n t := by
  rw [runSteps, h]

/-- A turn of the RX line answers, and the host and the transmitter are as before. -/
theorem step_rx {s : State} {b : Byte} {ts : List Turn} (h : TakesBytes s) (hs : s.script = .rx b :: ts) :
    ∃ t, step s = .next t ∧ SameButReceive s t ∧ t.script = ts ∧ TakesBytes t := by
  have htaken : TakesBytes { s with script := ts } := h
  obtain ⟨t, ht⟩ := exec_rxEvent_isNext htaken b
  obtain ⟨hsame, hscript⟩ := sameButReceive_of_rxEvent ht
  exact ⟨t, (step_of_script h.1 hs).trans ht, hsame, hscript, takesBytes_of_rxEvent htaken ht⟩

/-- Any bytes may arrive: as many steps as bytes, and the host and the transmitter are as before. -/
theorem runSteps_rx (bytes : List Byte) {s : State} {rest : List Turn} (h : TakesBytes s)
    (hs : s.script = bytes.map Turn.rx ++ rest) :
    ∃ t, runSteps bytes.length s = .next t ∧ SameButReceive s t ∧ t.script = rest ∧ TakesBytes t := by
  induction bytes generalizing s with
  | nil => exact ⟨s, rfl, by simp [SameButReceive], hs, h⟩
  | cons b bytes ih =>
    obtain ⟨u, hstep, hsame, hscript, hu⟩ := step_rx h hs
    obtain ⟨t, hrun, hsame', hscript', ht⟩ := ih hu hscript
    exact ⟨t, (runSteps_succ hstep _).trans hrun, hsame.trans hsame', hscript', ht⟩

/-! ### A TX_DONE, then the held command -/

/-- An enabled TX_DONE puts the byte in flight on the record and frees the transmitter (R64). -/
theorem exec_txDone_of_enabled {s : State} (hc : s.cfg.WellFormed) (h : txDoneEnabled s = true) :
    exec .txDone s = .next { emitTx s.txShift s with txBusy := false } := by
  rw [exec, execTxDone, onLegalConfig_of_wellFormed hc, if_pos h]

/-- The enabled turn of the TX line is that TX_DONE. -/
theorem step_txDone {s : State} {ts : List Turn} (hc : s.cfg.WellFormed) (hs : s.script = .txDone :: ts)
    (h : txDoneEnabled s = true) :
    step s = .next { emitTx s.txShift s with txBusy := false, script := ts } := by
  rw [step_of_script hc hs, agentTurn, exec_txDone_of_enabled (s := { s with script := ts }) hc h]
  rfl

/-- A SEND on an idle transmitter that is on begins its transmission (R63). -/
theorem exec_send_of_idle {s : State} (hc : s.cfg.WellFormed) (hen : s.txEn = true) (hb : s.txBusy = false)
    (b : Byte) : exec (.send b) s = .next (respond .ok 0 { s with txBusy := true, txShift := b }) := by
  rw [exec, execSend, onLegalConfig_of_wellFormed hc]
  simp [hen, hb]

/-- An INIT with a positive baud rate on an idle transmitter is accepted (R58). -/
theorem exec_init_of_idle {s : State} {baud : BitVec 24} (hc : s.cfg.WellFormed) (h0 : baud ≠ 0)
    (hb : s.txBusy = false) (hs : Bool) :
    exec (.init baud hs) s = .next (respond .ok 0 (configure baud hs s)) := by
  rw [exec, execInit, onLegalConfig_of_wellFormed hc, if_neg h0]
  simp [hb]

/-- What the host and the line see of state `t` once the command `i`, held in state `s`, has been accepted. -/
structure AcceptedAs (i : Instr) (s t : State) : Prop where
  held : t.held = none
  responses : t.responses = s.responses ++ [0x00000000]
  txWire : t.txWire = s.txWire
  hostQueue : t.hostQueue = s.hostQueue
  send : ∀ b, i = .send b → t.txBusy = true ∧ t.txShift = b
  init : ∀ baud hs, i = .init baud hs → t.txBusy = false ∧ t.div = divisor s.cfg.fClk baud hs ∧ t.u2x = hs

/-- A held command is accepted at the host's turn on an idle transmitter (R12, R83). -/
theorem step_accepts_held {s : State} {i : Instr} {ts : List Turn} (hc : s.cfg.WellFormed)
    (hheld : HeldIsSendOrInit s) (hh : s.held = some i) (hb : s.txBusy = false)
    (hscript : s.script = .host :: ts) : ∃ t, step s = .next t ∧ t.script = ts ∧ AcceptedAs i s t := by
  have hstep : step s = exec i { s with script := ts, held := none } := by
    rw [step_of_held hc (nextTurn_of_script s hscript) hh, takeTurn_of_script s hscript]
  obtain ⟨hen, hwf, ⟨b, rfl⟩ | ⟨baud, hs, rfl⟩⟩ := hheld i hh
  · refine ⟨_, hstep.trans (exec_send_of_idle (s := { s with script := ts, held := none }) hc hen hb b), rfl, ?_⟩
    constructor <;> simp
  · have h0 : baud ≠ 0 := by simpa [Instr.wellFormed] using hwf
    refine ⟨_, hstep.trans (exec_init_of_idle (s := { s with script := ts, held := none }) hc h0 hb hs), rfl, ?_⟩
    constructor <;> simp [hb]

theorem heldIsSendOrInit_congr {s t : State} (h : HeldIsSendOrInit s) (hheld : t.held = s.held)
    (hen : t.txEn = s.txEn) : HeldIsSendOrInit t := fun i hi => by
  rw [hen]
  exact h i (hheld ▸ hi)

/-- Settles O24: bytes leave the held command and the byte in flight alone, the TX_DONE frees the transmitter,
bytes again change nothing of it, and the host's turn retries the command on an idle transmitter. -/
theorem heldAcceptedAfterTxDone : Obligations.HeldAcceptedAfterTxDone := by
  intro before between rest s i hinv hheld hbusy hscript
  obtain ⟨-, hie⟩ := hinv.transmitter hbusy
  rw [List.append_assoc, List.cons_append] at hscript
  obtain ⟨s1, run1, same1, script1, takes1⟩ := runSteps_rx before ⟨hinv.config, hinv.writeCursor⟩ hscript
  obtain ⟨hcfg1, -, -, htxEn1, hie1, hbusy1, hshift1, hwire1, hresp1, hheld1, hqueue1⟩ := same1
  have henabled : txDoneEnabled s1 = true :=
    txDoneEnabled_iff.mpr ⟨hbusy1.trans hbusy, hie1.trans hie⟩
  have hdone := step_txDone takes1.1 script1 henabled
  obtain ⟨s3, run3, same3, script3, takes3⟩ :=
    runSteps_rx between (s := { emitTx s1.txShift s1 with txBusy := false, script := _ }) takes1 rfl
  obtain ⟨hcfg3, -, -, htxEn3, -, hbusy3, -, hwire3, hresp3, hheld3, hqueue3⟩ := same3
  have hretry : HeldIsSendOrInit s3 :=
    heldIsSendOrInit_congr hinv.heldCommand (hheld3.trans hheld1) (htxEn3.trans htxEn1)
  obtain ⟨t, hlast, hrest, hacc⟩ :=
    step_accepts_held takes3.1 hretry (hheld3.trans (hheld1.trans hheld)) hbusy3 script3
  have hrun : runSteps (before.length + (between.length + 1 + 1)) s = .next t := by
    rw [runSteps_add _ _ run1, runSteps_succ hdone, runSteps_add _ _ run3, runSteps_one hlast]
  refine ⟨t, by simpa only [Nat.add_assoc] using hrun, hacc.held, ?_, ?_, ?_, hrest, hacc.send, ?_⟩
  · rw [hacc.responses, hresp3, emitTx_responses, hresp1]
  · rw [hacc.txWire, hwire3, emitTx_txWire, hwire1, hshift1]
  · rw [hacc.hostQueue, hqueue3, emitTx_hostQueue, hqueue1]
  · intro baud hs hi
    simpa [hcfg3, hcfg1] using hacc.init baud hs hi

end Sys2Proof.Machine

/-! SUPPORT. What a step can do to the block, the invariant of the machine along every run, and the obligations
about the state (10_state.md). -/

namespace Sys2Proof.Machine

/-! ### An equation per outcome of an instruction -/

section Equations

variable {s : State} (hc : s.cfg.WellFormed)

include hc

/-- A SEND before any INIT answers NOT_INIT (R63). -/
theorem exec_send_of_off (hen : s.txEn = false) (b : Byte) : exec (.send b) s = .next (raise .notInit s) := by
  rw [exec, execSend, onLegalConfig_of_wellFormed hc]
  simp [hen]

theorem exec_init_of_zero (hs : Bool) : exec (.init 0 hs) s = .next (raise .illegal s) := by
  rw [exec, execInit, onLegalConfig_of_wellFormed hc, if_pos rfl]

theorem exec_pend : exec .pend s = .next (respond .ok (zext24 s.cnt) s) := onLegalConfig_of_wellFormed hc _

theorem exec_stat : exec .stat s = .next (respond .ok (statData s) s) := onLegalConfig_of_wellFormed hc _

theorem exec_clrovf : exec .clrovf s = .next (respond .ok 0 { s with rxOvf := false }) :=
  onLegalConfig_of_wellFormed hc _

theorem exec_read_of_zero (h0 : s.cnt = 0) : exec .read s = .next (raise .empty s) := by
  rw [exec, execRead, onLegalConfig_of_wellFormed hc, if_pos h0]

theorem exec_read_of_ne_zero (h0 : s.cnt ≠ 0) (hr : s.rc < s.cfg.cap) :
    exec .read s = .next (respond .ok (zext24 (s.buf.slot s.rc))
      { s with rc := nextIndex s s.rc, cnt := s.cnt - 1 }) := by
  rw [exec, execRead, onLegalConfig_of_wellFormed hc, if_neg h0, bufRead_of_lt hr]
  rfl

/-- A turn of the TX line with no TX_DONE enabled passes (log entry 7). -/
theorem exec_txDone_of_disabled (h : txDoneEnabled s = false) : exec .txDone s = .next s := by
  rw [exec, execTxDone, onLegalConfig_of_wellFormed hc, h]
  rfl

/-- A byte that arrives while the receiver is off is lost (R68). -/
theorem exec_rxEvent_of_disabled (hrx : rxEnabled s = false) (b : Byte) : exec (.rxEvent b) s = .next s := by
  rw [exec, execRxEvent, onLegalConfig_of_wellFormed hc, hrx]
  rfl

/-- A byte that arrives at a buffer that is not full is stored (R68). -/
theorem exec_rxEvent_of_not_full (hrx : rxEnabled s = true) (hnf : ¬bufferFull s) (hw : s.wc < s.cfg.cap)
    (b : Byte) : exec (.rxEvent b) s = .next { s with
      buf := s.buf.write s.wc b, cnt := s.cnt + 1, wc := nextIndex s s.wc } := by
  rw [exec, execRxEvent, onLegalConfig_of_wellFormed hc, hrx, if_neg (by decide), if_neg hnf, rxStore,
    bufWrite_of_lt hw]
  rfl

/-- A byte that arrives at a full buffer is the policy's to place (R69). -/
theorem exec_rxEvent_of_full (hrx : rxEnabled s = true) (hf : bufferFull s) (b : Byte) :
    exec (.rxEvent b) s = complete (rxFull b s) := by
  rw [exec, execRxEvent, onLegalConfig_of_wellFormed hc, hrx, if_neg (by decide), if_pos hf]

end Equations

section FullBuffer

variable {s : State}

theorem rxFull_of_overwriteOldest (hp : s.cfg.ovfPolicy = .overwriteOldest) (hw : s.wc < s.cfg.cap) (b : Byte) :
    rxFull b s = .ok { s with
      rxOvf := true, buf := s.buf.write s.wc b, wc := nextIndex s s.wc, rc := nextIndex s s.rc } := by
  simp only [rxFull, overflowData, hp]
  rw [bufWrite_of_lt (s := { s with rxOvf := true }) hw]
  rfl

theorem rxFull_of_dropNewest (hp : s.cfg.ovfPolicy = .dropNewest) (b : Byte) :
    rxFull b s = .ok { s with rxOvf := true } := by
  simp only [rxFull, overflowData, hp]

theorem rxFull_of_sourceCompat (hp : s.cfg.ovfPolicy = .sourceCompat) (hw : s.wc < s.cfg.cap) (b : Byte) :
    rxFull b s = .ok { s with
      rxOvf := true, buf := s.buf.write s.wc b, cnt := s.cnt + 1, wc := nextIndex s s.wc } := by
  simp only [rxFull, overflowData, hp]
  rw [bufWrite_of_lt (s := { s with rxOvf := true }) hw]
  rfl

end FullBuffer

/-! ### The block, apart from the agents in front of it -/

/-- The fields of the block (10_state.md R17) and `tx_wire` are the same; the agents' own fields may differ. -/
def SameBlock (s t : State) : Prop :=
  ∃ responses held hostQueue script draws, t = { s with
    responses := responses, held := held, hostQueue := hostQueue, script := script, draws := draws }

theorem sameBlock_takeTurn (s : State) : SameBlock s (takeTurn s) := by
  unfold takeTurn
  split <;> exact ⟨_, _, _, _, _, rfl⟩

theorem SameBlock.withAgents {s t : State} (e : SameBlock s t) (responses : List Word) (held : Option Instr)
    (hostQueue : List HostItem) :
    SameBlock s { t with responses := responses, held := held, hostQueue := hostQueue } := by
  obtain ⟨_, _, _, _, _, rfl⟩ := e
  exact ⟨_, _, _, _, _, rfl⟩

/-- Fetching an instruction moves the agents only. -/
theorem sameBlock_fetched (s : State) : SameBlock s (fetched s) := by
  unfold fetched
  have taken := sameBlock_takeTurn s
  split
  · split
    · exact taken.withAgents _ _ _
    · split
      · exact taken.withAgents _ _ _
      · exact taken
  · exact taken

/-- A step leaves the block alone unless it runs an instruction. -/
theorem sameBlock_of_not_issued {s t : State} (h : step s = .next t) (hi : issued s = none) :
    SameBlock s t := by
  rcases step_cases h with ⟨i, hi', -⟩ | ⟨-, -, -, ⟨-, rfl⟩ | ⟨_, _, _, -, -, rfl⟩⟩
  · rw [hi] at hi'; cases hi'
  · exact sameBlock_takeTurn s
  · exact (sameBlock_takeTurn s).withAgents _ _ _

/-- The instruction that a step runs meets the block as the step found it. -/
theorem exec_fetched_or_sameBlock {s t : State} (h : step s = .next t) :
    (∃ i, issued s = some i ∧ exec i (fetched s) = .next t) ∨ (issued s = none ∧ SameBlock s t) := by
  cases hi : issued s with
  | some i => exact .inl ⟨i, rfl, by rw [← step_of_issued (wellFormed_of_step h) hi, h]⟩
  | none => exact .inr ⟨rfl, sameBlock_of_not_issued h hi⟩

/-! ### The invariant, state by state -/

/-- The invariant speaks of the agents only by the held command. -/
theorem Inv.of_sameBlock {s t : State} (h : Inv s) (e : SameBlock s t) (hheld : HeldIsSendOrInit t) :
    Inv t := by
  obtain ⟨_, _, _, _, _, rfl⟩ := e
  exact { h with heldCommand := hheld }

theorem SameBlock.heldIsSendOrInit {s t : State} (e : SameBlock s t) (h : HeldIsSendOrInit s)
    (hheld : t.held = none ∨ t.held = s.held) : HeldIsSendOrInit t := by
  obtain ⟨_, _, _, _, _, rfl⟩ := e
  intro i hi
  rcases hheld with hn | hs
  · rw [hn] at hi; cases hi
  · exact h i (hs ▸ hi)

theorem Inv.after_fetch {s : State} (h : Inv s) : Inv (fetched s) :=
  h.of_sameBlock (sameBlock_fetched s) <| (sameBlock_fetched s).heldIsSendOrInit h.heldCommand <|
    (fetched_held_cases s).imp_right And.left

/-- An answer leaves the block and the held command alone. -/
theorem Inv.after_respond {s : State} (h : Inv s) (st : Status) (d : BitVec 24) : Inv (respond st d s) :=
  { h with }

/-- 70_reset_and_hazards.md R95 says nothing of a block whose transmitter is on. -/
theorem untouchedBeforeInit_of_txEn {s : State} (h : s.txEn = true) : UntouchedBeforeInit s :=
  fun hoff => absurd hoff (by simp [h])

/-- What is held on a transmitter that is on may be any well-formed SEND or INIT (R12). -/
theorem Inv.after_hold {s : State} (h : Inv s) {i : Instr} (hen : s.txEn = true) (hwf : i.wellFormed = true)
    (hi : (∃ b, i = .send b) ∨ ∃ baud hs, i = .init baud hs) : Inv (hold i s) :=
  { h with heldCommand := fun j hj => by cases hj; exact ⟨hen, hwf, hi⟩ }

/-- An INIT turns the four enables on together (R20). -/
theorem Inv.after_configure {s : State} (h : Inv s) (baud : BitVec 24) (hs : Bool) :
    Inv (configure baud hs s) :=
  { h with
    transmitter := fun _ => ⟨rfl, rfl⟩
    enables := ⟨rfl, rfl, rfl⟩
    beforeInit := untouchedBeforeInit_of_txEn rfl
    heldCommand := fun i hi => ⟨rfl, (h.heldCommand i hi).2⟩ }

/-- Receiver and transmitter are on together (R20). -/
theorem Inv.txEn_of_rxEnabled {s : State} (h : Inv s) (hrx : rxEnabled s = true) : s.txEn = true := by
  rw [← h.enables.1]
  exact (rxEnabled_iff.mp hrx).1

theorem Inv.txEn_of_cnt_ne_zero {s : State} (h : Inv s) (h0 : s.cnt ≠ 0) : s.txEn = true := by
  by_contra hoff
  obtain ⟨-, -, -, -, -, -, hcnt, -⟩ := h.beforeInit (by simpa using hoff)
  exact h0 hcnt

/-! ### Which slots have been written (20_memory.md R40) -/

/-- The unread slots of a full buffer do not all lie below `wc`, so every slot has been written. -/
theorem Inv.all_written_of_full {s : State} (h : Inv s) (hf : bufferFull s) :
    ∀ i < s.cfg.cap, (s.buf.read i).isSome := by
  rcases h.written with hall | ⟨hsum, -⟩
  · exact hall
  · have := h.writeCursor
    unfold bufferFull at hf
    omega

/-- Storing below the last slot writes the next slot in order; storing in the last one completes the buffer. -/
theorem Inv.written_store {s : State} (h : Inv s) (hnf : ¬bufferFull s) (b : Byte) :
    UnreadWritten { s with buf := s.buf.write s.wc b, cnt := s.cnt + 1, wc := nextIndex s s.wc } := by
  rcases h.written with hall | ⟨hsum, hbelow⟩
  · exact .inl fun i hi => Memory.isSome_write (hall i hi)
  · have hw := h.writeCursor
    have upTo (i : Nat) (hi : i < s.wc + 1) : ((s.buf.write s.wc b).read i).isSome := by
      rcases Nat.lt_succ_iff_lt_or_eq.mp hi with hlt | rfl
      · exact Memory.isSome_write (hbelow i hlt)
      · simp
    rcases Nat.lt_or_eq_of_le (Nat.succ_le_of_lt hw) with hlt | hlast
    · have hnext : nextIndex s s.wc = s.wc + 1 := Nat.mod_eq_of_lt hlt
      have hcnt := count_succ (Nat.lt_of_not_le hnf) h.config.2.2
      refine .inr ⟨?_, fun i hi => upTo i (hnext ▸ hi)⟩
      simp only [hnext, hcnt]
      omega
    · exact .inl fun i hi => upTo i (by simp only at hi; omega)

/-- Consuming the byte at `rc` leaves the unread slots below `wc`. -/
theorem Inv.written_consume {s : State} (h : Inv s) (h0 : s.cnt ≠ 0) :
    UnreadWritten { s with rc := nextIndex s s.rc, cnt := s.cnt - 1 } := by
  rcases h.written with hall | ⟨hsum, hbelow⟩
  · exact .inl hall
  · have hw := h.writeCursor
    have hcnt := count_pred h0
    have hnext : nextIndex s s.rc = s.rc + 1 := Nat.mod_eq_of_lt (by omega)
    refine .inr ⟨?_, hbelow⟩
    simp only [hnext]
    omega

/-! ### The count and the cursors (10_state.md R29) -/

/-- The slot after the one `n` places past the read cursor. -/
theorem nextIndex_add_mod (s : State) (n : Nat) :
    nextIndex s ((s.rc + n) % s.cfg.cap) = (s.rc + (n + 1)) % s.cfg.cap := by
  rw [nextIndex, Nat.mod_add_mod, Nat.add_assoc]

/-- The slot `n` places past the slot after the read cursor. -/
theorem nextIndex_rc_add_mod (s : State) (n : Nat) :
    (nextIndex s s.rc + n) % s.cfg.cap = (s.rc + (n + 1)) % s.cfg.cap := by
  rw [nextIndex, Nat.mod_add_mod, Nat.add_assoc, Nat.add_comm 1 n]

theorem Inv.countFits_store {s : State} (h : Inv s) (hnf : ¬bufferFull s) (b : Byte) :
    CountFits { s with buf := s.buf.write s.wc b, cnt := s.cnt + 1, wc := nextIndex s s.wc } := by
  intro hp
  obtain ⟨-, hwc⟩ := h.count hp
  have hlt := Nat.lt_of_not_le hnf
  simp only [count_succ hlt h.config.2.2]
  exact ⟨hlt, by rw [hwc, nextIndex_add_mod]⟩

/-- Overwriting moves both cursors and keeps the count. -/
theorem Inv.countFits_overwrite {s : State} (h : Inv s) (b : Byte) :
    CountFits { s with
      rxOvf := true, buf := s.buf.write s.wc b, wc := nextIndex s s.wc, rc := nextIndex s s.rc } := by
  intro hp
  obtain ⟨hle, hwc⟩ := h.count hp
  exact ⟨hle, by simp only [nextIndex_rc_add_mod]; rw [hwc, nextIndex_add_mod]⟩

theorem Inv.countFits_consume {s : State} (h : Inv s) (h0 : s.cnt ≠ 0) :
    CountFits { s with rc := nextIndex s s.rc, cnt := s.cnt - 1 } := by
  intro hp
  obtain ⟨hle, hwc⟩ := h.count hp
  have hcnt := count_pred h0
  exact ⟨by simp only; omega, by simp only [nextIndex_rc_add_mod, hcnt]; exact hwc⟩

/-! ### Every instruction keeps the invariant -/

/-- What the three storing branches of RX_EVENT share: the cursors and the buffer's canonical form (R25). -/
theorem Inv.after_store {s : State} (h : Inv s) (hrx : rxEnabled s = true) {b : Byte} {cnt : BitVec 16}
    {rc : Nat} {ovf : Bool} (hrc : rc < s.cfg.cap)
    (hcount : CountFits { s with
      rxOvf := ovf, buf := s.buf.write s.wc b, cnt := cnt, wc := nextIndex s s.wc, rc := rc })
    (hwritten : UnreadWritten { s with
      rxOvf := ovf, buf := s.buf.write s.wc b, cnt := cnt, wc := nextIndex s s.wc, rc := rc }) :
    Inv { s with rxOvf := ovf, buf := s.buf.write s.wc b, cnt := cnt, wc := nextIndex s s.wc, rc := rc } :=
  { h with
    writeCursor := nextIndex_lt h.config _
    readCursor := hrc
    canonical := Memory.write_wf h.canonical _ _
    slots := Memory.write_below h.slots h.writeCursor _
    count := hcount
    written := hwritten
    beforeInit := untouchedBeforeInit_of_txEn (h.txEn_of_rxEnabled hrx) }

theorem Inv.after_execRxEvent {b : Byte} {s t : State} (h : Inv s) (e : execRxEvent b s = .next t) : Inv t := by
  have stays {u : State} (hf : bufferFull s) (hbuf : u.buf = s.buf.write s.wc b) (hcfg : u.cfg = s.cfg) :
      UnreadWritten u :=
    .inl fun i hi => hbuf ▸ Memory.isSome_write (h.all_written_of_full hf i (hcfg ▸ hi))
  obtain ⟨-, ⟨-, rfl⟩ | ⟨hrx, hnf, -, rfl⟩ | ⟨hrx, hf, -, -, rfl⟩ | ⟨hrx, -, -, rfl⟩ | ⟨hrx, hf, hp, -, rfl⟩⟩ :=
    execRxEvent_cases e
  · exact h
  · exact h.after_store hrx h.readCursor (h.countFits_store hnf b) (h.written_store hnf b)
  · exact h.after_store hrx (nextIndex_lt h.config _) (h.countFits_overwrite b) (stays hf rfl rfl)
  · exact { h with beforeInit := untouchedBeforeInit_of_txEn (h.txEn_of_rxEnabled hrx) }
  · exact h.after_store hrx h.readCursor (fun hne => absurd hp hne) (stays hf rfl rfl)

theorem Inv.after_execRead {s t : State} (h : Inv s) (e : execRead s = .next t) : Inv t := by
  obtain ⟨-, ⟨-, rfl⟩ | ⟨h0, -, rfl⟩⟩ := execRead_cases e
  · exact h.after_respond _ _
  · refine Inv.after_respond ?_ _ _
    exact { h with
      readCursor := nextIndex_lt h.config _
      count := h.countFits_consume h0
      written := h.written_consume h0
      beforeInit := untouchedBeforeInit_of_txEn (h.txEn_of_cnt_ne_zero h0) }

theorem Inv.after_execInit {baud : BitVec 24} {hs : Bool} {s t : State} (h : Inv s)
    (e : execInit baud hs s = .next t) : Inv t := by
  obtain ⟨-, ⟨-, rfl⟩ | ⟨h0, hb, rfl⟩ | ⟨-, -, rfl⟩⟩ := execInit_cases e
  · exact h.after_respond _ _
  · exact h.after_hold (h.transmitter hb).1 (by simpa [Instr.wellFormed] using h0) (.inr ⟨_, _, rfl⟩)
  · exact (h.after_configure baud hs).after_respond _ _

theorem Inv.after_execSend {b : Byte} {s t : State} (h : Inv s) (e : execSend b s = .next t) : Inv t := by
  obtain ⟨-, ⟨-, rfl⟩ | ⟨hen, -, rfl⟩ | ⟨hen, -, rfl⟩⟩ := execSend_cases e
  · exact h.after_respond _ _
  · exact h.after_hold hen rfl (.inl ⟨_, rfl⟩)
  · refine Inv.after_respond ?_ _ _
    exact { h with
      transmitter := fun _ => ⟨hen, h.enables.2.2.trans hen⟩
      beforeInit := untouchedBeforeInit_of_txEn hen }

theorem Inv.after_execTxDone {s t : State} (h : Inv s) (e : execTxDone s = .next t) : Inv t := by
  obtain ⟨-, ⟨hdone, rfl⟩ | ⟨-, rfl⟩⟩ := execTxDone_cases e
  · have hen := (h.transmitter (txDoneEnabled_iff.mp hdone).1).1
    exact { h with
      transmitter := fun hb => by cases hb
      beforeInit := untouchedBeforeInit_of_txEn hen }
  · exact h

theorem Inv.after_execClrovf {s t : State} (h : Inv s) (e : execClrovf s = .next t) : Inv t := by
  obtain ⟨-, rfl⟩ := execClrovf_cases e
  refine Inv.after_respond ?_ _ _
  refine { h with beforeInit := fun hoff => ?_ }
  obtain ⟨hdiv, hu2x, hbusy, hbuf, hwc, hrc, hcnt, -, hwire⟩ := h.beforeInit hoff
  exact ⟨hdiv, hu2x, hbusy, hbuf, hwc, hrc, hcnt, rfl, hwire⟩

/-- Every instruction keeps the invariant. -/
theorem Inv.after_exec {i : Instr} {s t : State} (h : Inv s) (e : exec i s = .next t) : Inv t := by
  cases i with
  | init baud hs => exact h.after_execInit e
  | send b => exact h.after_execSend e
  | pend => obtain ⟨-, rfl⟩ := execPend_cases e; exact h.after_respond _ _
  | read => exact h.after_execRead e
  | stat => obtain ⟨-, rfl⟩ := execStat_cases e; exact h.after_respond _ _
  | clrovf => exact h.after_execClrovf e
  | rxEvent b => exact h.after_execRxEvent e
  | txDone => exact h.after_execTxDone e

/-- Settles O52: the instruction runs in a fetched state, which meets the invariant, and keeps it; a step
without one leaves the block and the held command alone. -/
theorem stepKeepsTheInvariant : Obligations.StepKeepsTheInvariant := by
  intro s t h e
  rcases exec_fetched_or_sameBlock e with ⟨i, -, e'⟩ | ⟨hi, hsame⟩
  · exact h.after_fetch.after_exec e'
  · obtain ⟨-, -, -, -, -, -, -, -, -, -, -, -, -, -, -, hheld⟩ := block_of_not_issued e hi
    exact h.of_sameBlock hsame (hsame.heldIsSendOrInit h.heldCommand (.inr hheld))

/-! ### Runs -/

/-- Nothing is held, stored or in flight at power-on. -/
theorem inv_powerOn {c : Config} (hc : c.WellFormed) (program : List HostItem) (turns : List Turn)
    (shift : Byte) (n : Nat) :
    Inv { State.powerOn c with hostQueue := program, script := turns, txShift := shift, draws := n } where
  config := hc
  writeCursor := hc.2.1
  readCursor := hc.2.1
  canonical := List.Pairwise.nil
  slots := fun _ hmem => by cases hmem
  count := fun _ => ⟨Nat.zero_le _, (Nat.zero_mod _).symm⟩
  written := .inr ⟨rfl, fun i hi => absurd hi (Nat.not_lt_zero i)⟩
  transmitter := fun hb => by cases hb
  enables := ⟨rfl, rfl, rfl⟩
  beforeInit := fun _ => ⟨rfl, rfl, rfl, rfl, rfl, rfl, rfl, rfl, rfl⟩
  heldCommand := fun _ hi => by cases hi

/-- Every state of a run from power-on meets the invariant. -/
theorem Run.inv {s : State} {h : History} (r : Run s h) : Inv s := by
  induction r with
  | powerOn c hc program turns shift n => exact inv_powerOn hc program turns shift n
  | step _ e ih => exact stepKeepsTheInvariant _ _ ih e

/-- A claim about the block and the history that holds at power-on, and that every instruction keeps, holds in
every run. -/
theorem Run.induction_on_exec {P : State → History → Prop}
    (powerOn : ∀ c program turns shift n,
      P { State.powerOn c with hostQueue := program, script := turns, txShift := shift, draws := n } .start)
    (agents : ∀ {s t h}, SameBlock s t → P s h → P t h)
    (keeps : ∀ {i s t h}, P s h → exec i s = .next t → P t (h.record i s))
    {s : State} {h : History} (r : Run s h) : P s h := by
  induction r with
  | powerOn c _ program turns shift n => exact powerOn c program turns shift n
  | @step s t h _ e ih =>
    rcases exec_fetched_or_sameBlock e with ⟨i, hi, e'⟩ | ⟨hi, hsame⟩
    · rw [afterStep_of_issued hi]
      exact keeps (agents (sameBlock_fetched s) ih) e'
    · rw [afterStep_of_not_issued hi]
      exact agents hsame ih

/-! ### What an instruction adds to the history -/

section Record

variable {s : State} (h : History)

theorem record_rxEvent_of_disabled (hrx : rxEnabled s = false) (b : Byte) : h.record (.rxEvent b) s = h := by
  simp [History.record, hrx]

theorem record_rxEvent_of_enabled (hrx : rxEnabled s = true) (b : Byte) :
    h.record (.rxEvent b) s =
      { h with rxBytes := h.rxBytes ++ [b], overflowed := h.overflowed || decide (bufferFull s) } :=
  if_pos hrx

theorem record_read_of_zero (h0 : s.cnt = 0) : h.record .read s = h := if_pos h0

theorem record_read_of_ne_zero (h0 : s.cnt ≠ 0) :
    h.record .read s = { h with readBytes := h.readBytes ++ [s.buf.slot s.rc] } := if_neg h0

theorem record_send_of_accepted (hen : s.txEn = true) (hb : s.txBusy = false) (b : Byte) :
    h.record (.send b) s = { h with sentBytes := h.sentBytes ++ [b] } := by
  simp [History.record, hen, hb]

theorem record_send_of_off (hen : s.txEn = false) (b : Byte) : h.record (.send b) s = h := by
  simp [History.record, hen]

theorem record_send_of_busy (hb : s.txBusy = true) (b : Byte) : h.record (.send b) s = h := by
  simp [History.record, hb]

end Record

/-! ### The count under SOURCE_COMPAT (10_state.md R29) -/

/-- R29 for SOURCE_COMPAT: the count and the cursors follow the numbers of bytes received and read. -/
def FollowsHistory (s : State) (h : History) : Prop :=
  s.cfg.ovfPolicy = .sourceCompat →
    (s.cnt.toNat : Int) = ((h.rxBytes.length : Int) - h.readBytes.length) % 65536 ∧
    s.wc = h.rxBytes.length % s.cfg.cap ∧ s.rc = h.readBytes.length % s.cfg.cap

/-- One byte more received: the count and the write cursor go up by one. -/
theorem FollowsHistory.received {s t : State} {h k : History} (f : FollowsHistory s h) (b : Byte)
    (hcfg : t.cfg = s.cfg) (hcnt : t.cnt = s.cnt + 1) (hwc : t.wc = nextIndex s s.wc) (hrc : t.rc = s.rc)
    (hrx : k.rxBytes = h.rxBytes ++ [b]) (hread : k.readBytes = h.readBytes) : FollowsHistory t k := by
  intro hp
  rw [hcfg] at hp
  obtain ⟨fcnt, fwc, frc⟩ := f hp
  rw [hcfg, hcnt, hwc, hrc, hrx, hread, List.length_append, List.length_singleton]
  refine ⟨?_, by rw [fwc, nextIndex, Nat.mod_add_mod], frc⟩
  rw [count_succ_mod]
  push_cast
  omega

/-- One byte more read: the count goes down by one and the read cursor up. -/
theorem FollowsHistory.consumed {s t : State} {h k : History} (f : FollowsHistory s h) (b : Byte)
    (h0 : s.cnt ≠ 0) (hcfg : t.cfg = s.cfg) (hcnt : t.cnt = s.cnt - 1) (hwc : t.wc = s.wc)
    (hrc : t.rc = nextIndex s s.rc) (hrx : k.rxBytes = h.rxBytes) (hread : k.readBytes = h.readBytes ++ [b]) :
    FollowsHistory t k := by
  intro hp
  rw [hcfg] at hp
  obtain ⟨fcnt, fwc, frc⟩ := f hp
  rw [hcfg, hwc, hrc, hrx, hread, List.length_append, List.length_singleton]
  refine ⟨?_, fwc, by rw [frc, nextIndex, Nat.mod_add_mod]⟩
  have hpred : (t.cnt.toNat : Int) + 1 = s.cnt.toNat := by rw [hcnt]; exact_mod_cast count_pred h0
  push_cast
  omega

theorem FollowsHistory.after_execRxEvent {b : Byte} {s t : State} {h : History} (f : FollowsHistory s h)
    (e : execRxEvent b s = .next t) : FollowsHistory t (h.record (.rxEvent b) s) := by
  obtain ⟨-, ⟨hrx, rfl⟩ | ⟨hrx, -, -, rfl⟩ | ⟨-, -, hp, -, rfl⟩ | ⟨-, -, hp, rfl⟩ | ⟨hrx, -, -, -, rfl⟩⟩ :=
    execRxEvent_cases e
  · rwa [record_rxEvent_of_disabled h hrx]
  · exact record_rxEvent_of_enabled h hrx b ▸ f.received b rfl rfl rfl rfl rfl rfl
  · exact fun hcompat => absurd (hp.symm.trans hcompat) (by decide)
  · exact fun hcompat => absurd (hp.symm.trans hcompat) (by decide)
  · exact record_rxEvent_of_enabled h hrx b ▸ f.received b rfl rfl rfl rfl rfl rfl

theorem FollowsHistory.after_execRead {s t : State} {h : History} (f : FollowsHistory s h)
    (e : execRead s = .next t) : FollowsHistory t (h.record .read s) := by
  obtain ⟨-, ⟨h0, rfl⟩ | ⟨h0, -, rfl⟩⟩ := execRead_cases e
  · rw [record_read_of_zero h h0]; exact f
  · exact record_read_of_ne_zero h h0 ▸ f.consumed _ h0 rfl rfl rfl rfl rfl rfl

theorem FollowsHistory.after_execSend {b : Byte} {s t : State} {h : History} (f : FollowsHistory s h)
    (e : execSend b s = .next t) : FollowsHistory t (h.record (.send b) s) := by
  obtain ⟨-, ⟨hen, rfl⟩ | ⟨-, hb, rfl⟩ | ⟨hen, hb, rfl⟩⟩ := execSend_cases e
  · rw [record_send_of_off h hen]; exact f
  · rw [record_send_of_busy h hb]; exact f
  · rw [record_send_of_accepted h hen hb]; exact f

/-- Only a RX_EVENT and a READ move the count, the cursors or the bytes counted. -/
theorem FollowsHistory.after_exec {i : Instr} {s t : State} {h : History} (f : FollowsHistory s h)
    (e : exec i s = .next t) : FollowsHistory t (h.record i s) := by
  cases i with
  | init baud hs =>
    obtain ⟨-, ⟨-, rfl⟩ | ⟨-, -, rfl⟩ | ⟨-, -, rfl⟩⟩ := execInit_cases e <;> exact f
  | send b => exact f.after_execSend e
  | pend => obtain ⟨-, rfl⟩ := execPend_cases e; exact f
  | read => exact f.after_execRead e
  | stat => obtain ⟨-, rfl⟩ := execStat_cases e; exact f
  | clrovf => obtain ⟨-, rfl⟩ := execClrovf_cases e; exact f
  | rxEvent b => exact f.after_execRxEvent e
  | txDone => obtain ⟨-, ⟨-, rfl⟩ | ⟨-, rfl⟩⟩ := execTxDone_cases e <;> exact f

theorem Run.followsHistory {s : State} {h : History} (r : Run s h) : FollowsHistory s h := by
  refine r.induction_on_exec (fun c program turns shift n _ => ?_) (fun e f => ?_) fun f e => f.after_exec e
  · exact ⟨rfl, (Nat.zero_mod _).symm, (Nat.zero_mod _).symm⟩
  · obtain ⟨_, _, _, _, _, rfl⟩ := e
    exact f

/-- Settles O40: the invariant for the two policies that keep the count, the history for SOURCE_COMPAT. -/
theorem countAndCursorsInEveryRun : Obligations.CountAndCursorsInEveryRun := by
  intro s h r
  refine ⟨fun hp => ?_, r.followsHistory⟩
  obtain ⟨hle, hwc⟩ := r.inv.count hp
  exact ⟨Nat.zero_le _, hle, hwc⟩

/-! ### The byte in flight (10_state.md R28) -/

/-- The accepted SENDs are what has departed and then what is in flight (41_transmit.md R65): every instruction
keeps this. -/
theorem sentBytes_record_of_exec {i : Instr} {s t : State} {h : History}
    (hsent : h.sentBytes = s.txWire ++ inFlight s) (e : exec i s = .next t) :
    (h.record i s).sentBytes = t.txWire ++ inFlight t := by
  cases i with
  | init baud hs =>
    obtain ⟨-, ⟨-, rfl⟩ | ⟨-, -, rfl⟩ | ⟨-, -, rfl⟩⟩ := execInit_cases e <;> exact hsent
  | send b =>
    obtain ⟨-, ⟨hen, rfl⟩ | ⟨-, hb, rfl⟩ | ⟨hen, hb, rfl⟩⟩ := execSend_cases e
    · rw [record_send_of_off h hen]; exact hsent
    · rw [record_send_of_busy h hb]; exact hsent
    · simp [record_send_of_accepted h hen hb, inFlight, hb, hsent]
  | pend => obtain ⟨-, rfl⟩ := execPend_cases e; exact hsent
  | read =>
    obtain ⟨-, ⟨h0, rfl⟩ | ⟨h0, -, rfl⟩⟩ := execRead_cases e
    · rw [record_read_of_zero h h0]; exact hsent
    · rw [record_read_of_ne_zero h h0]; exact hsent
  | stat => obtain ⟨-, rfl⟩ := execStat_cases e; exact hsent
  | clrovf => obtain ⟨-, rfl⟩ := execClrovf_cases e; exact hsent
  | rxEvent b =>
    have hrecord : (h.record (.rxEvent b) s).sentBytes = h.sentBytes := by
      cases hrx : rxEnabled s
      · rw [record_rxEvent_of_disabled h hrx]
      · rw [record_rxEvent_of_enabled h hrx]
    obtain ⟨-, -, -, -, -, hbusy, hshift, hwire, -⟩ := (sameButReceive_of_rxEvent e).1
    rw [hrecord, hsent, inFlight, inFlight, hbusy, hshift, hwire]
  | txDone =>
    obtain ⟨-, ⟨hdone, rfl⟩ | ⟨-, rfl⟩⟩ := execTxDone_cases e
    · obtain ⟨hb, -⟩ := txDoneEnabled_iff.mp hdone
      simpa [History.record, inFlight, hb] using hsent
    · exact hsent

theorem Run.sentBytes_eq {s : State} {h : History} (r : Run s h) : h.sentBytes = s.txWire ++ inFlight s := by
  refine r.induction_on_exec (P := fun s h => h.sentBytes = s.txWire ++ inFlight s)
    (fun c program turns shift n => rfl) (fun e hsent => ?_) sentBytes_record_of_exec
  obtain ⟨_, _, _, _, _, rfl⟩ := e
  exact hsent

theorem inFlight_length_le (s : State) : (inFlight s).length ≤ 1 := by
  unfold inFlight
  cases s.txBusy <;> simp

/-- Settles O22: R28 is part of the invariant, and what was sent and has not departed is in flight. -/
theorem inFlightOnlyWithTransmitterOn : Obligations.InFlightOnlyWithTransmitterOn := by
  intro s h r
  refine ⟨r.inv.transmitter, ?_⟩
  rw [r.sentBytes_eq, List.length_append, Nat.add_sub_cancel_left]
  exact inFlight_length_le s

/-! ### The unread bytes as a queue (10_state.md R30) -/

/-- Slot `i` is `k` places after `rc` for `k = (i - rc) mod cap`. -/
theorem sub_emod_lt_iff_exists {i rc n cap : Nat} (hi : i < cap) (hn : n ≤ cap) :
    ((i : Int) - rc) % cap < n ↔ ∃ k < n, i = (rc + k) % cap := by
  have hcap : (0 : Int) < cap := by omega
  constructor
  · intro hlt
    obtain ⟨k, hk⟩ := Int.eq_ofNat_of_zero_le (Int.emod_nonneg ((i : Int) - rc) hcap.ne')
    refine ⟨k, by omega, ?_⟩
    zify
    rw [← hk, Int.add_emod_emod, add_sub_cancel, Int.emod_eq_of_lt (by omega) (by omega)]
  · rintro ⟨k, hk, rfl⟩
    have hdist : (((rc + k) % cap : Nat) : Int) - rc ≡ k [ZMOD cap] := by
      push_cast
      simpa using (Int.mod_modEq ((rc : Int) + k) cap).sub_right (rc : Int)
    rw [hdist, Int.emod_eq_of_lt (by omega) (by omega)]
    omega

theorem Inv.cnt_eq_cap_of_full {s : State} (h : Inv s) (hp : s.cfg.ovfPolicy ≠ .sourceCompat)
    (hf : bufferFull s) : s.cnt.toNat = s.cfg.cap := Nat.le_antisymm (h.count hp).1 hf

/-- Overwriting is consuming the oldest byte and then storing the new one. -/
theorem Inv.unread_overwrite {s : State} (h : Inv s) (hp : s.cfg.ovfPolicy ≠ .sourceCompat)
    (hf : bufferFull s) (b : Byte) :
    unread { s with
        rxOvf := true, buf := s.buf.write s.wc b, wc := nextIndex s s.wc, rc := nextIndex s s.rc } =
      (unread s).tail ++ [b] := by
  have hcnt := h.cnt_eq_cap_of_full hp hf
  have hpos := h.config.2.1
  have h0 : s.cnt ≠ 0 := by
    intro hz
    have hzero : s.cnt.toNat = 0 := by simp [hz]
    omega
  have hpred := count_pred h0
  have hfit := h.countFits_consume h0 hp
  have hstore := unread_store (s := { s with rc := nextIndex s s.rc, cnt := s.cnt - 1 }) b h.config.2.2
    (by simp only; omega) hfit.2
  rw [unread_consume h0 h.readCursor, List.tail_cons, ← hstore]
  exact unread_congr (BitVec.sub_add_cancel _ _).symm rfl rfl rfl

/-- READ answers the oldest unread byte and consumes it (R71). -/
theorem unread_of_execRead {s t : State} (e : execRead s = .next t) (h0 : s.cnt ≠ 0) :
    ∃ b, unread s = b :: unread t ∧ t.responses = s.responses ++ [b.setWidth 32] := by
  obtain ⟨-, ⟨hz, -⟩ | ⟨-, hr, rfl⟩⟩ := execRead_cases e
  · exact absurd hz h0
  · exact ⟨_, unread_consume h0 hr, by rw [respond_responses, responseWord_ok_zext24 (by decide)]⟩

/-- RX_EVENT appends, overwrites the oldest or drops the newest (R68, R69). -/
theorem Inv.unread_of_rxEvent {b : Byte} {s t : State} (h : Inv s) (hp : s.cfg.ovfPolicy ≠ .sourceCompat)
    (hen : s.rxEn = true) (e : execRxEvent b s = .next t) :
    unread t = if s.cnt.toNat < s.cfg.cap then unread s ++ [b]
      else if s.cfg.ovfPolicy = .overwriteOldest then (unread s).tail ++ [b] else unread s := by
  have hrx : rxEnabled s = true :=
    rxEnabled_iff.mpr ⟨hen, h.enables.2.1.trans (h.enables.1.symm.trans hen)⟩
  obtain ⟨-, ⟨hoff, -⟩ | ⟨-, hnf, -, rfl⟩ | ⟨-, hf, hpol, -, rfl⟩ | ⟨-, hf, hpol, rfl⟩ | ⟨-, -, hpol, -⟩⟩ :=
    execRxEvent_cases e
  · rw [hrx] at hoff; cases hoff
  · have hlt := Nat.lt_of_not_le hnf
    rw [if_pos hlt, unread_store b h.config.2.2 hlt (h.count hp).2]
  · rw [if_neg (Nat.not_lt.mpr hf), if_pos hpol, h.unread_overwrite hp hf]
  · rw [if_neg (Nat.not_lt.mpr hf), if_neg (by simp [hpol])]
    exact unread_congr rfl rfl rfl rfl
  · exact absurd hpol hp

/-- Settles O36: the place of a slot after `rc`, then READ and RX_EVENT on the list of unread bytes. -/
theorem unreadBytesFormAQueue : Obligations.UnreadBytesFormAQueue := by
  intro s t h hp
  exact ⟨fun i hi => sub_emod_lt_iff_exists hi (h.count hp).1, fun e h0 => unread_of_execRead e h0,
    fun b e hen => h.unread_of_rxEvent hp hen e⟩

/-! ### The sticky overflow flag (10_state.md R27) -/

/-- CLROVF leaves the flag off; a RX_EVENT sets it where it finds the buffer full; nothing else writes it. -/
theorem rxOvf_of_exec {i : Instr} {s t : State} (e : exec i s = .next t) :
    (i = .clrovf ∧ t.rxOvf = false) ∨
      ((∃ b, i = .rxEvent b) ∧ rxEnabled s = true ∧ bufferFull s ∧ t.rxOvf = true) ∨
      (¬((∃ b, i = .rxEvent b) ∧ rxEnabled s = true ∧ bufferFull s) ∧ t.rxOvf = s.rxOvf) := by
  cases i with
  | init baud hs =>
    obtain ⟨-, ⟨-, rfl⟩ | ⟨-, -, rfl⟩ | ⟨-, -, rfl⟩⟩ := execInit_cases e <;> simp
  | send b => obtain ⟨-, ⟨-, rfl⟩ | ⟨-, -, rfl⟩ | ⟨-, -, rfl⟩⟩ := execSend_cases e <;> simp
  | pend => obtain ⟨-, rfl⟩ := execPend_cases e; simp
  | read => obtain ⟨-, ⟨-, rfl⟩ | ⟨-, -, rfl⟩⟩ := execRead_cases e <;> simp
  | stat => obtain ⟨-, rfl⟩ := execStat_cases e; simp
  | clrovf => obtain ⟨-, rfl⟩ := execClrovf_cases e; simp
  | rxEvent b =>
    obtain ⟨-, ⟨hoff, rfl⟩ | ⟨-, hnf, -, rfl⟩ | ⟨hrx, hf, -, -, rfl⟩ | ⟨hrx, hf, -, rfl⟩ |
      ⟨hrx, hf, -, -, rfl⟩⟩ := execRxEvent_cases e
    · exact .inr (.inr ⟨by simp [hoff], rfl⟩)
    · exact .inr (.inr ⟨by simp [hnf], rfl⟩)
    · exact .inr (.inl ⟨⟨b, rfl⟩, hrx, hf, rfl⟩)
    · exact .inr (.inl ⟨⟨b, rfl⟩, hrx, hf, rfl⟩)
    · exact .inr (.inl ⟨⟨b, rfl⟩, hrx, hf, rfl⟩)
  | txDone => obtain ⟨-, ⟨-, rfl⟩ | ⟨-, rfl⟩⟩ := execTxDone_cases e <;> simp

/-- Settles O46: by what the instruction of the step does to the flag. -/
theorem stickyOverflowFlag : Obligations.StickyOverflowFlag := by
  intro s t e
  rcases exec_fetched_or_sameBlock e with ⟨i, hi, e'⟩ | ⟨hi, _, _, _, _, _, rfl⟩
  · have hrx : rxEnabled (fetched s) = true ↔ s.rxEn = true ∧ s.rxcIe = true := by simp [rxEnabled_iff]
    have hfull : bufferFull (fetched s) ↔ s.cfg.cap ≤ s.cnt.toNat := by simp [bufferFull]
    rcases rxOvf_of_exec e' with ⟨rfl, hoff⟩ | ⟨⟨b, rfl⟩, hen, hf, hon⟩ | ⟨hnot, hsame⟩
    · simp [hi, hoff]
    · simp [hi, hon, hrx.mp hen, hfull.mp hf]
    · rw [hrx, hfull] at hnot
      rw [hsame, fetched_rxOvf]
      exact ⟨fun hon hoff => by simp [hon] at hoff,
        fun hoff => iff_of_false (by simp [hoff]) (by simpa [hi, and_assoc] using hnot)⟩
  · simp [hi]

/-! ### Who writes which field (10_state.md R17) -/

/-- Settles O49: each instruction by its outcomes, whose field lemmas say what was written. -/
theorem onlyTheNamedWritersWrite : Obligations.OnlyTheNamedWritersWrite := by
  intro i s t e
  cases i with
  | init baud hs =>
    obtain ⟨-, ⟨-, rfl⟩ | ⟨-, -, rfl⟩ | ⟨-, -, rfl⟩⟩ := execInit_cases e <;> simp
  | send b =>
    obtain ⟨-, ⟨-, rfl⟩ | ⟨-, -, rfl⟩ | ⟨-, -, rfl⟩⟩ := execSend_cases e <;> simp
  | pend => obtain ⟨-, rfl⟩ := execPend_cases e; simp
  | read => obtain ⟨-, ⟨-, rfl⟩ | ⟨-, -, rfl⟩⟩ := execRead_cases e <;> simp
  | stat => obtain ⟨-, rfl⟩ := execStat_cases e; simp
  | clrovf => obtain ⟨-, rfl⟩ := execClrovf_cases e; simp
  | rxEvent b =>
    obtain ⟨-, ⟨-, rfl⟩ | ⟨-, -, -, rfl⟩ | ⟨-, hf, hp, -, rfl⟩ | ⟨-, -, -, rfl⟩ | ⟨-, -, -, -, rfl⟩⟩ :=
      execRxEvent_cases e
    · simp
    · simp
    · simp [hp, hf]
    · simp
    · simp
  | txDone => obtain ⟨-, ⟨-, rfl⟩ | ⟨-, rfl⟩⟩ := execTxDone_cases e <;> simp

/-! ### The idle shift register (10_state.md R22) -/

/-- The same state with another content of `tx_shift`. -/
def withShift (b : Byte) (s : State) : State := { s with txShift := b }

theorem takeTurn_withShift (b : Byte) (s : State) : takeTurn (withShift b s) = withShift b (takeTurn s) := by
  unfold takeTurn withShift
  cases s.script <;> rfl

/-- Which instruction is issued depends on the turn and the host. -/
theorem issued_withShift (b : Byte) (s : State) : issued (withShift b s) = issued s := rfl

theorem hostPresents_withShift (b : Byte) (s : State) : hostPresents (withShift b s) = hostPresents s := rfl

theorem fetched_withShift (b : Byte) (s : State) : fetched (withShift b s) = withShift b (fetched s) := by
  have hturn : nextTurn (withShift b s) = nextTurn s := rfl
  unfold fetched
  rw [hturn, hostPresents_withShift, takeTurn_withShift]
  cases nextTurn s with
  | host =>
    change (match s.held with | some _ => _ | none => _) = _
    cases s.held with
    | some i => rfl
    | none => cases hostPresents s <;> rfl
  | rx x => rfl
  | txDone => rfl

/-- A RX_EVENT carries the content of `tx_shift` along (R68, R69). -/
theorem exec_rxEvent_withShift {x : Byte} {s t : State} (e : exec (.rxEvent x) s = .next t) (b : Byte) :
    exec (.rxEvent x) (withShift b s) = .next (withShift b t) := by
  obtain ⟨hc, ⟨hrx, rfl⟩ | ⟨hrx, hnf, hw, rfl⟩ | ⟨hrx, hf, hp, hw, rfl⟩ | ⟨hrx, hf, hp, rfl⟩ |
    ⟨hrx, hf, hp, hw, rfl⟩⟩ := execRxEvent_cases e
  · exact exec_rxEvent_of_disabled (s := withShift b _) hc hrx x
  · exact exec_rxEvent_of_not_full (s := withShift b s) hc hrx hnf hw x
  · rw [exec_rxEvent_of_full (s := withShift b s) hc hrx hf,
      rxFull_of_overwriteOldest (s := withShift b s) hp hw]
    rfl
  · rw [exec_rxEvent_of_full (s := withShift b s) hc hrx hf, rxFull_of_dropNewest (s := withShift b s) hp]
    rfl
  · rw [exec_rxEvent_of_full (s := withShift b s) hc hrx hf, rxFull_of_sourceCompat (s := withShift b s) hp hw]
    rfl

/-- With no byte in flight, an instruction other than SEND carries the content of `tx_shift` along. -/
theorem exec_withShift {i : Instr} {s t : State} (hidle : s.txBusy = false) (hi : ∀ x, i ≠ .send x)
    (e : exec i s = .next t) (b : Byte) : exec i (withShift b s) = .next (withShift b t) := by
  cases i with
  | init baud hs =>
    obtain ⟨hc, ⟨rfl, rfl⟩ | ⟨-, hb, -⟩ | ⟨h0, -, rfl⟩⟩ := execInit_cases e
    · exact exec_init_of_zero (s := withShift b s) hc hs
    · rw [hidle] at hb; cases hb
    · exact exec_init_of_idle (s := withShift b s) hc h0 hidle hs
  | send x => exact absurd rfl (hi x)
  | pend => obtain ⟨hc, rfl⟩ := execPend_cases e; exact exec_pend (s := withShift b s) hc
  | read =>
    obtain ⟨hc, ⟨h0, rfl⟩ | ⟨h0, hr, rfl⟩⟩ := execRead_cases e
    · exact exec_read_of_zero (s := withShift b s) hc h0
    · exact exec_read_of_ne_zero (s := withShift b s) hc h0 hr
  | stat => obtain ⟨hc, rfl⟩ := execStat_cases e; exact exec_stat (s := withShift b s) hc
  | clrovf => obtain ⟨hc, rfl⟩ := execClrovf_cases e; exact exec_clrovf (s := withShift b s) hc
  | rxEvent x => exact exec_rxEvent_withShift e b
  | txDone =>
    obtain ⟨hc, ⟨hdone, -⟩ | ⟨hnot, rfl⟩⟩ := execTxDone_cases e
    · rw [(txDoneEnabled_iff.mp hdone).1] at hidle; cases hidle
    · exact exec_txDone_of_disabled (s := withShift b _) hc hnot

/-- With no byte in flight, an accepted SEND writes `tx_shift` anew, and no other answer depends on it. -/
theorem exec_withShift_of_idle {i : Instr} {s t : State} (hidle : s.txBusy = false) (e : exec i s = .next t)
    (b : Byte) :
    ∃ b', exec i (withShift b s) = .next (withShift b' t) ∧ (t.txBusy = true → b' = t.txShift) := by
  by_cases hi : ∃ x, i = .send x
  · obtain ⟨x, rfl⟩ := hi
    obtain ⟨hc, ⟨hen, rfl⟩ | ⟨-, hb, -⟩ | ⟨hen, -, rfl⟩⟩ := execSend_cases e
    · refine ⟨b, exec_send_of_off (s := withShift b s) hc hen x, fun hb => ?_⟩
      exact absurd hb (by simp [hidle])
    · exact absurd hb (by simp [hidle])
    · exact ⟨x, exec_send_of_idle (s := withShift b s) hc hen hidle x, fun _ => rfl⟩
  · refine ⟨b, exec_withShift hidle (not_exists.mp hi) e b, fun hb => ?_⟩
    obtain ⟨-, -, -, -, -, -, hbusy, -⟩ := onlyTheNamedWritersWrite i s t e
    rw [hidle, hb] at hbusy
    exact absurd (hbusy (by decide)) hi

/-- A step that runs no instruction carries the content of `tx_shift` along. -/
theorem step_withShift_of_not_issued {s t : State} (e : step s = .next t) (hi : issued s = none) (b : Byte) :
    step (withShift b s) = .next (withShift b t) := by
  have hc : s.cfg.WellFormed := wellFormed_of_step e
  rcases step_cases e with ⟨i, hi', -⟩ | ⟨-, hh, hn, ⟨hp, rfl⟩ | ⟨w, rest, er, hp, hd, rfl⟩⟩
  · rw [hi] at hi'; cases hi'
  · rw [step_of_hostPresents_none (s := withShift b s) hc hn hh hp, takeTurn_withShift]
  · rw [step_of_hostPresents (s := withShift b s) hc hn hh hp, presentWord_of_error hd, takeTurn_withShift]
    rfl

/-- Settles O55: the step issues the same instruction, in fetched states that differ only in `tx_shift`. -/
theorem idleShiftIsUnobservable : Obligations.IdleShiftIsUnobservable := by
  intro s t b hidle e
  change ∃ b', step (withShift b s) = .next (withShift b' t) ∧ (t.txBusy = true → b' = t.txShift)
  rcases exec_fetched_or_sameBlock e with ⟨i, hi, e'⟩ | ⟨hi, hsame⟩
  · have hc : s.cfg.WellFormed := wellFormed_of_step e
    rw [step_of_issued (s := withShift b s) hc hi, fetched_withShift]
    exact exec_withShift_of_idle (by simpa using hidle) e' b
  · refine ⟨b, step_withShift_of_not_issued e hi b, fun hb => ?_⟩
    obtain ⟨_, _, _, _, _, rfl⟩ := hsame
    exact absurd hb (by simp [hidle])

end Sys2Proof.Machine

/-! SUPPORT. What READ answers where it answers a byte, what a step leaves of the pending count, and the
obligations about the memory (20_memory.md). -/

namespace Sys2Proof.Machine

/-! ### READ answers a written slot (R40) -/

theorem Memory.slot_of_read {m : Memory} {i : Nat} {b : Byte} (h : m.read i = some b) : m.slot i = b := by
  rw [Memory.slot, h, Option.getD_some]

/-- With bytes pending, the read cursor is at a slot that a RX_EVENT has written. -/
theorem Inv.readCursor_written {s : State} (h : Inv s) (h0 : s.cnt ≠ 0) :
    ∃ b, s.buf.read s.rc = some b := by
  refine Option.isSome_iff_exists.mp ?_
  rcases h.written with hall | ⟨hsum, hbelow⟩
  · exact hall s.rc h.readCursor
  · exact hbelow s.rc (by have := count_pos h0; omega)

/-- READ on a written slot answers its byte, consumed. -/
theorem exec_read_of_written {s : State} {b : Byte} (h : Inv s) (h0 : s.cnt ≠ 0)
    (hb : s.buf.read s.rc = some b) :
    exec .read s = .next { s with
      rc := (s.rc + 1) % s.cfg.cap, cnt := s.cnt - 1, responses := s.responses ++ [b.setWidth 32] } := by
  rw [exec_read_of_ne_zero h.config h0 h.readCursor, Memory.slot_of_read hb, respond,
    responseWord_ok_zext24 (by decide)]
  rfl

/-- Settles O41: the invariant of every run says that the slot at `rc` is written while bytes are pending. -/
theorem readsReturnWrittenSlots : Obligations.ReadsReturnWrittenSlots := by
  intro s h r h0
  obtain ⟨b, hb⟩ := r.inv.readCursor_written h0
  exact ⟨b, hb, exec_read_of_written r.inv h0 hb⟩

/-! ### What the other instructions leave alone (10_state.md R17) -/

theorem cfg_of_exec {i : Instr} {s t : State} (e : exec i s = .next t) : t.cfg = s.cfg :=
  (onlyTheNamedWritersWrite i s t e).1.1

/-- Only a RX_EVENT writes the buffer. -/
theorem rxEvent_of_buf_ne {i : Instr} {s t : State} (e : exec i s = .next t) (hne : t.buf ≠ s.buf) :
    ∃ b, i = .rxEvent b := by
  obtain ⟨-, -, -, -, -, -, -, -, hbuf, -⟩ := onlyTheNamedWritersWrite i s t e
  exact hbuf (.inl hne)

/-- Only READ and RX_EVENT write the count. -/
theorem read_or_rxEvent_of_cnt_ne {i : Instr} {s t : State} (e : exec i s = .next t) (hne : t.cnt ≠ s.cnt) :
    i = .read ∨ ∃ b, i = .rxEvent b := by
  obtain ⟨-, -, -, -, -, -, -, -, -, -, hcnt, -⟩ := onlyTheNamedWritersWrite i s t e
  exact hcnt hne

theorem cfg_of_step {s t : State} (e : step s = .next t) : t.cfg = s.cfg := by
  rcases exec_fetched_or_sameBlock e with ⟨i, -, e'⟩ | ⟨-, _, _, _, _, _, rfl⟩
  · rw [cfg_of_exec e', fetched_cfg]
  · rfl

/-! ### The pending count falls by READs only (R43) -/

/-- READ takes at most one byte off the count. -/
theorem cnt_le_of_execRead {s t : State} (e : execRead s = .next t) : s.cnt.toNat ≤ t.cnt.toNat + 1 := by
  obtain ⟨-, ⟨-, rfl⟩ | ⟨h0, -, rfl⟩⟩ := execRead_cases e
  · simp
  · exact (count_pred h0).ge

/-- A byte that arrives never lowers the count: below the capacity it does not wrap, and a full buffer keeps it
under the two policies. -/
theorem cnt_le_of_execRxEvent {b : Byte} {s t : State} (hp : s.cfg.ovfPolicy ≠ .sourceCompat)
    (e : execRxEvent b s = .next t) : s.cnt.toNat ≤ t.cnt.toNat := by
  obtain ⟨hc, ⟨-, rfl⟩ | ⟨-, hnf, -, rfl⟩ | ⟨-, -, -, -, rfl⟩ | ⟨-, -, -, rfl⟩ | ⟨-, -, hpol, -⟩⟩ :=
    execRxEvent_cases e
  · exact le_rfl
  · exact (Nat.le_succ _).trans (count_succ (Nat.lt_of_not_le hnf) hc.2.2).ge
  · exact le_rfl
  · exact le_rfl
  · exact absurd hpol hp

theorem cnt_le_of_exec {i : Instr} {s t : State} (hp : s.cfg.ovfPolicy ≠ .sourceCompat)
    (e : exec i s = .next t) : s.cnt.toNat ≤ t.cnt.toNat + if i = .read then 1 else 0 := by
  by_cases hcnt : t.cnt = s.cnt
  · rw [hcnt]
    exact Nat.le_add_right _ _
  · rcases read_or_rxEvent_of_cnt_ne e hcnt with rfl | ⟨b, rfl⟩
    · exact cnt_le_of_execRead e
    · exact cnt_le_of_execRxEvent hp e

/-- A step lowers the count by at most one, and only where it runs a READ. -/
theorem cnt_le_of_step {s t : State} (hp : s.cfg.ovfPolicy ≠ .sourceCompat) (e : step s = .next t) :
    s.cnt.toNat ≤ t.cnt.toNat + if issued s = some .read then 1 else 0 := by
  rcases exec_fetched_or_sameBlock e with ⟨i, hi, e'⟩ | ⟨-, _, _, _, _, _, rfl⟩
  · simpa [hi] using cnt_le_of_exec (by simpa using hp) e'
  · exact Nat.le_add_right _ _

/-! ### Many steps -/

/-- The first of `n + 1` steps, and the rest. -/
theorem exists_step_of_runSteps {n : Nat} {s t : State} (e : runSteps (n + 1) s = .next t) :
    ∃ u, step s = .next u ∧ runSteps n u = .next t := by
  rw [runSteps] at e
  cases hs : step s with
  | next u => exact ⟨u, rfl, by rw [hs] at e; exact e⟩
  | fault f => rw [hs] at e; cases e
  | refused f => rw [hs] at e; cases e

theorem readsIssued_succ {n : Nat} {s u : State} (e : step s = .next u) :
    readsIssued (n + 1) s = (if issued s = some .read then 1 else 0) + readsIssued n u := by
  rw [readsIssued, e]

theorem Inv.after_runSteps {n : Nat} {s t : State} (h : Inv s) (e : runSteps n s = .next t) : Inv t := by
  induction n generalizing s with
  | zero => cases e; exact h
  | succ n ih =>
    obtain ⟨u, hu, e⟩ := exists_step_of_runSteps e
    exact ih (stepKeepsTheInvariant _ _ h hu) e

theorem cnt_le_of_runSteps {n : Nat} {s t : State} (hp : s.cfg.ovfPolicy ≠ .sourceCompat)
    (e : runSteps n s = .next t) : s.cnt.toNat ≤ t.cnt.toNat + readsIssued n s := by
  induction n generalizing s with
  | zero => cases e; exact Nat.le_add_right _ _
  | succ n ih =>
    obtain ⟨u, hu, e⟩ := exists_step_of_runSteps e
    have hfirst := cnt_le_of_step hp hu
    have hrest := ih (by rwa [cfg_of_step hu]) e
    rw [readsIssued_succ hu]
    omega

/-- Settles O42: the count has fallen by the READs run at most, and with bytes pending READ answers one. -/
theorem pendingReadsSucceed : Obligations.PendingReadsSucceed := by
  intro n s t h hp e
  have hle := cnt_le_of_runSteps hp e
  refine ⟨hle, fun hreads => ?_⟩
  have h0 : t.cnt ≠ 0 := by
    intro hz
    have hzero : t.cnt.toNat = 0 := by simp [hz]
    omega
  have ht := h.after_runSteps e
  obtain ⟨b, hb⟩ := ht.readCursor_written h0
  exact ⟨b, _, exec_read_of_written ht h0 hb, rfl⟩

/-! ### Words as bytes (R35) -/

/-- A word is the sum of its bytes by place. -/
theorem toNat_eq_sum_of_bytes (w : Word) :
    w.toNat = (w.extractLsb' 0 8).toNat + 2 ^ 8 * (w.extractLsb' 8 8).toNat +
      2 ^ 16 * (w.extractLsb' 16 8).toNat + 2 ^ 24 * (w.extractLsb' 24 8).toNat := by
  have hw := w.isLt
  simp only [BitVec.extractLsb'_toNat, Nat.shiftRight_eq_div_pow]
  omega

/-- Settles O7: the four bytes that `wordBytes` lists, put together again and as a sum. -/
theorem wordsMoveLittleEndian : Obligations.WordsMoveLittleEndian := fun w =>
  ⟨_, _, _, _, rfl, wordOfBytes_wordBytes w, toNat_eq_sum_of_bytes w⟩

/-! ### The one slot a RX_EVENT writes (R33) -/

/-- A RX_EVENT leaves the buffer alone, or, where it is enabled, writes its byte at the write cursor. -/
theorem buf_of_execRxEvent {b : Byte} {s t : State} (e : execRxEvent b s = .next t) :
    t.buf = s.buf ∨ (rxEnabled s = true ∧ t.buf = s.buf.write s.wc b) := by
  obtain ⟨-, ⟨-, rfl⟩ | ⟨hrx, -, -, rfl⟩ | ⟨hrx, -, -, -, rfl⟩ | ⟨-, -, -, rfl⟩ | ⟨hrx, -, -, -, rfl⟩⟩ :=
    execRxEvent_cases e
  · exact .inl rfl
  · exact .inr ⟨hrx, rfl⟩
  · exact .inr ⟨hrx, rfl⟩
  · exact .inl rfl
  · exact .inr ⟨hrx, rfl⟩

/-- Settles O50: only a RX_EVENT writes the buffer, and its write leaves every other slot alone. -/
theorem onlyTheWriteCursorSlotChanges : Obligations.OnlyTheWriteCursorSlotChanges := by
  intro i s t e j hj
  obtain ⟨b, rfl⟩ := rxEvent_of_buf_ne e fun hbuf => hj (by rw [hbuf])
  rcases buf_of_execRxEvent e with hbuf | ⟨hrx, hbuf⟩
  · exact absurd (by rw [hbuf]) hj
  · have hslot : j = s.wc := by
      by_contra hother
      exact hj (by rw [hbuf, Memory.read_write_other _ _ hother])
    obtain ⟨hen, hie⟩ := rxEnabled_iff.mp hrx
    exact ⟨hslot, b, rfl, by rw [hbuf, hslot, Memory.read_write_same], hen, hie⟩

/-! ### A slot that does not exist (R33, log entry 4) -/

theorem bufRead_of_ge {i : Nat} {s : State} (h : s.cfg.cap ≤ i) : bufRead i s = .error (.slotOutOfRange i) :=
  if_neg (Nat.not_lt.mpr h)

theorem bufWrite_of_ge {i : Nat} {s : State} (h : s.cfg.cap ≤ i) (b : Byte) :
    bufWrite i b s = .error (.slotOutOfRange i) := if_neg (Nat.not_lt.mpr h)

theorem exec_read_of_rc_ge {s : State} (hc : s.cfg.WellFormed) (h0 : s.cnt ≠ 0) (hr : s.cfg.cap ≤ s.rc) :
    exec .read s = .fault (.slotOutOfRange s.rc) := by
  rw [exec, execRead, onLegalConfig_of_wellFormed hc, if_neg h0, bufRead_of_ge hr]
  rfl

theorem rxStore_of_wc_ge {s : State} (hw : s.cfg.cap ≤ s.wc) (b : Byte) :
    rxStore b s = .error (.slotOutOfRange s.wc) := by
  rw [rxStore, bufWrite_of_ge hw]
  rfl

/-- The full branch reaches for the slot under the two policies that store. -/
theorem rxFull_of_wc_ge {s : State} (hw : s.cfg.cap ≤ s.wc) (hp : s.cfg.ovfPolicy ≠ .dropNewest) (b : Byte) :
    rxFull b s = .error (.slotOutOfRange s.wc) := by
  have hwrite := bufWrite_of_ge (s := { s with rxOvf := true }) hw b
  unfold rxFull overflowData
  cases hpol : s.cfg.ovfPolicy with
  | overwriteOldest => simp only [hwrite]; rfl
  | dropNewest => exact absurd hpol hp
  | sourceCompat => simp only [hwrite]; rfl

theorem exec_rxEvent_of_wc_ge {s : State} (hc : s.cfg.WellFormed) (hrx : rxEnabled s = true)
    (hw : s.cfg.cap ≤ s.wc) (hstores : bufferFull s → s.cfg.ovfPolicy ≠ .dropNewest) (b : Byte) :
    exec (.rxEvent b) s = .fault (.slotOutOfRange s.wc) := by
  by_cases hf : bufferFull s
  · rw [exec_rxEvent_of_full hc hrx hf, rxFull_of_wc_ge hw (hstores hf), complete]
  · rw [exec, execRxEvent, onLegalConfig_of_wellFormed hc, hrx, if_neg (by decide), if_neg hf,
      rxStore_of_wc_ge hw, complete]

/-- Settles O35: READ reads at `rc`, and a RX_EVENT that stores writes at `wc`. -/
theorem slotOutOfRangeFaults : Obligations.SlotOutOfRangeFaults := by
  intro b s hc
  refine ⟨fun hr h0 => exec_read_of_rc_ge hc h0 hr, fun hw hen hie hcase => ?_⟩
  refine exec_rxEvent_of_wc_ge hc (rxEnabled_iff.mpr ⟨hen, hie⟩) hw (fun hf => ?_) b
  rcases hcase with hnf | hpol | hpol
  · exact absurd hf (Nat.not_le.mpr hnf)
  · simp [hpol]
  · simp [hpol]

/-! ### Reports repeated (R37) -/

/-- An answer, and the same answer again. -/
theorem respond_respond (st : Status) (d : BitVec 24) (s : State) :
    respond st d (respond st d s) =
      { s with responses := s.responses ++ [responseWord st d, responseWord st d] } := by
  simp [respond]

/-- Settles O56: neither the count nor the status depends on the answers given. -/
theorem repeatedReportsAgree : Obligations.RepeatedReportsAgree := by
  rintro i s t u (rfl | rfl) e e'
  · obtain ⟨-, rfl⟩ := execPend_cases e
    obtain ⟨-, rfl⟩ := execPend_cases e'
    exact ⟨_, rfl, respond_respond _ _ s⟩
  · obtain ⟨-, rfl⟩ := execStat_cases e
    obtain ⟨-, rfl⟩ := execStat_cases e'
    exact ⟨_, rfl, respond_respond _ _ s⟩

end Sys2Proof.Machine

/-! SUPPORT. The decoder opcode by opcode and its round trips with the encoder, what the port and the host's RECV
loop make of a word, and the obligations about the encoding (30_encoding.md). -/

namespace Sys2Proof

/-! ### What each opcode decodes as (R52) -/

section Opcodes

variable {w : Word}

theorem decodeWord_of_op_init (h : opField w = 0x1#4) : decodeWord w = decodeInit w := by
  rw [decodeWord, h]; rfl

theorem decodeWord_of_op_send (h : opField w = 0x2#4) : decodeWord w = decodeByte w .send := by
  rw [decodeWord, h]; rfl

theorem decodeWord_of_op_pend (h : opField w = 0x3#4) : decodeWord w = decodeNone w .pend := by
  rw [decodeWord, h]; rfl

theorem decodeWord_of_op_read (h : opField w = 0x4#4) : decodeWord w = decodeNone w .read := by
  rw [decodeWord, h]; rfl

theorem decodeWord_of_op_stat (h : opField w = 0x5#4) : decodeWord w = decodeNone w .stat := by
  rw [decodeWord, h]; rfl

theorem decodeWord_of_op_clrovf (h : opField w = 0x6#4) : decodeWord w = decodeNone w .clrovf := by
  rw [decodeWord, h]; rfl

theorem decodeWord_of_op_rxEvent (h : opField w = 0x8#4) : decodeWord w = decodeByte w .rxEvent := by
  rw [decodeWord, h]; rfl

theorem decodeWord_of_op_txDone (h : opField w = 0x9#4) : decodeWord w = decodeNone w .txDone := by
  rw [decodeWord, h]; rfl

end Opcodes

/-! ### From an instruction to its word and back (R48) -/

theorem decodeInit_formatInit {baud : BitVec 24} (h0 : baud ≠ 0) (hs : Bool) :
    decodeInit (formatInit baud hs) = .ok (.init baud hs) := by
  rw [decodeInit, initReserved_formatInit, baudField_formatInit, hsField_formatInit,
    if_neg (by decide), if_neg h0]

theorem decodeByte_formatByte (op : BitVec 4) (b : Byte) (mk : Byte → Instr) :
    decodeByte (formatByte op b) mk = .ok (mk b) := by
  rw [decodeByte, byteReserved_formatByte, byteField_formatByte, if_neg (by decide)]

theorem decodeNone_formatNone (op : BitVec 4) (i : Instr) : decodeNone (formatNone op) i = .ok i := by
  rw [decodeNone, noneReserved_formatNone, if_neg (by decide)]

theorem decodeWord_encode {i : Instr} (h : i.wellFormed = true) : decodeWord (encode i) = .ok i := by
  cases i with
  | init baud hs =>
    have h0 : baud ≠ 0 := by simpa [Instr.wellFormed] using h
    exact (decodeWord_of_op_init (opField_formatInit baud hs)).trans (decodeInit_formatInit h0 hs)
  | send b => exact (decodeWord_of_op_send (opField_formatByte _ b)).trans (decodeByte_formatByte _ b _)
  | pend => exact (decodeWord_of_op_pend (opField_formatNone _)).trans (decodeNone_formatNone _ _)
  | read => exact (decodeWord_of_op_read (opField_formatNone _)).trans (decodeNone_formatNone _ _)
  | stat => exact (decodeWord_of_op_stat (opField_formatNone _)).trans (decodeNone_formatNone _ _)
  | clrovf => exact (decodeWord_of_op_clrovf (opField_formatNone _)).trans (decodeNone_formatNone _ _)
  | rxEvent b => exact (decodeWord_of_op_rxEvent (opField_formatByte _ b)).trans (decodeByte_formatByte _ b _)
  | txDone => exact (decodeWord_of_op_txDone (opField_formatNone _)).trans (decodeNone_formatNone _ _)

/-- The four bytes of a word that decodes, at the head of any bytes (20_memory.md R35). -/
theorem decodeBytes_wordBytes_append {w : Word} {i : Instr} (h : decodeWord w = .ok i) (rest : List Byte) :
    decodeBytes (wordBytes w ++ rest) = .ok (i, rest) := by
  simp only [wordBytes, List.cons_append, List.nil_append, decodeBytes, wordOfBytes_wordBytes, h]

/-- On the port a word that decodes is a command, or refused as an event (R54). -/
theorem decodePort_of_decodeWord {w : Word} {i : Instr} (h : decodeWord w = .ok i) :
    decodePort w = if i.isEvent then .error .eventOnPort else .ok i := by
  simp only [decodePort, h]

/-- Settles O4: the decoder reads from each format the fields that the encoder put there. -/
theorem decodeOfEncode : Obligations.DecodeOfEncode := fun _ hwf =>
  have h := decodeWord_encode hwf
  ⟨h, decodeBytes_wordBytes_append h, decodePort_of_decodeWord h⟩

/-! ### From a word to its instruction and back (R48) -/

theorem append_fields_init (w : Word) :
    opField w ++ initReserved w ++ BitVec.ofBool (hsField w) ++ baudField w = w := by
  have hhs : BitVec.ofBool (hsField w) = w.extractLsb' 24 1 := by
    apply BitVec.eq_of_getLsbD_eq
    intro k hk
    obtain rfl : k = 0 := by omega
    simp [hsField]
  rw [hhs]
  unfold opField initReserved baudField
  simp (disch := omega) only [BitVec.extractLsb'_append_extractLsb'_eq_extractLsb']
  exact BitVec.extractLsb'_eq_self

theorem append_fields_byte (w : Word) : opField w ++ byteReserved w ++ byteField w = w := by
  unfold opField byteReserved byteField
  simp (disch := omega) only [BitVec.extractLsb'_append_extractLsb'_eq_extractLsb']
  exact BitVec.extractLsb'_eq_self

theorem append_fields_none (w : Word) : opField w ++ noneReserved w = w := by
  unfold opField noneReserved
  simp (disch := omega) only [BitVec.extractLsb'_append_extractLsb'_eq_extractLsb']
  exact BitVec.extractLsb'_eq_self

theorem decodeInit_eq_ok {w : Word} {i : Instr} (h : decodeInit w = .ok i) :
    initReserved w = 0 ∧ baudField w ≠ 0 ∧ i = .init (baudField w) (hsField w) := by
  unfold decodeInit at h
  split_ifs at h with hr h0
  cases h
  exact ⟨not_not.mp hr, h0, rfl⟩

theorem decodeByte_eq_ok {w : Word} {mk : Byte → Instr} {i : Instr} (h : decodeByte w mk = .ok i) :
    byteReserved w = 0 ∧ i = mk (byteField w) := by
  unfold decodeByte at h
  split_ifs at h with hr
  cases h
  exact ⟨not_not.mp hr, rfl⟩

theorem decodeNone_eq_ok {w : Word} {i j : Instr} (h : decodeNone w j = .ok i) :
    noneReserved w = 0 ∧ i = j := by
  unfold decodeNone at h
  split_ifs at h with hr
  cases h
  exact ⟨not_not.mp hr, rfl⟩

theorem encode_of_decodeInit {w : Word} {i : Instr} (hop : opField w = 0x1#4) (h : decodeInit w = .ok i) :
    encode i = w ∧ i.wellFormed = true := by
  obtain ⟨hr, h0, rfl⟩ := decodeInit_eq_ok h
  have hw := append_fields_init w
  rw [hop, hr] at hw
  exact ⟨hw, by simpa [Instr.wellFormed] using h0⟩

theorem encode_of_decodeByte {w : Word} {op : BitVec 4} {mk : Byte → Instr} {i : Instr} (hop : opField w = op)
    (hmk : ∀ b, encode (mk b) = formatByte op b ∧ (mk b).wellFormed = true) (h : decodeByte w mk = .ok i) :
    encode i = w ∧ i.wellFormed = true := by
  obtain ⟨hr, rfl⟩ := decodeByte_eq_ok h
  have hw := append_fields_byte w
  rw [hop, hr] at hw
  exact ⟨(hmk _).1.trans hw, (hmk _).2⟩

theorem encode_of_decodeNone {w : Word} {op : BitVec 4} {i j : Instr} (hop : opField w = op)
    (hj : encode j = formatNone op ∧ j.wellFormed = true) (h : decodeNone w j = .ok i) :
    encode i = w ∧ i.wellFormed = true := by
  obtain ⟨hr, rfl⟩ := decodeNone_eq_ok h
  have hw := append_fields_none w
  rw [hop, hr] at hw
  exact ⟨hj.1.trans hw, hj.2⟩

/-- Settles O5: a word is its opcode, its reserved bits, which are 0 where it decodes, and its operands. -/
theorem encodeOfDecode : Obligations.EncodeOfDecode := by
  intro w i h
  unfold decodeWord at h
  split at h
  next hop => exact encode_of_decodeInit (BitVec.eq_of_toNat_eq hop) h
  next hop => exact encode_of_decodeByte (op := 0x2#4) (BitVec.eq_of_toNat_eq hop) (fun _ => ⟨rfl, rfl⟩) h
  next hop => exact encode_of_decodeNone (op := 0x3#4) (BitVec.eq_of_toNat_eq hop) ⟨rfl, rfl⟩ h
  next hop => exact encode_of_decodeNone (op := 0x4#4) (BitVec.eq_of_toNat_eq hop) ⟨rfl, rfl⟩ h
  next hop => exact encode_of_decodeNone (op := 0x5#4) (BitVec.eq_of_toNat_eq hop) ⟨rfl, rfl⟩ h
  next hop => exact encode_of_decodeNone (op := 0x6#4) (BitVec.eq_of_toNat_eq hop) ⟨rfl, rfl⟩ h
  next hop => exact encode_of_decodeByte (op := 0x8#4) (BitVec.eq_of_toNat_eq hop) (fun _ => ⟨rfl, rfl⟩) h
  next hop => exact encode_of_decodeNone (op := 0x9#4) (BitVec.eq_of_toNat_eq hop) ⟨rfl, rfl⟩ h
  next => cases h

end Sys2Proof

namespace Sys2Proof.Machine

/-! ### What the port answers (R53, R54) -/

section Port

variable {w : Word}

/-- Where a word decodes to commands only, the port decodes it alike. -/
theorem decodePort_eq_of_commands {r : Except DecodeError Instr} (h : decodeWord w = r)
    (hr : ∀ i, r = .ok i → i.isEvent = false) : decodePort w = r := by
  unfold decodePort
  rw [h]
  cases r with
  | error e => rfl
  | ok i => exact if_neg (by simp [hr i rfl])

theorem decodePort_eq_decodeByte {mk : Byte → Instr} (h : decodeWord w = decodeByte w mk)
    (hmk : ∀ b, (mk b).isEvent = false) : decodePort w = decodeByte w mk :=
  decodePort_eq_of_commands h fun i hi => by obtain ⟨-, rfl⟩ := decodeByte_eq_ok hi; exact hmk _

theorem decodePort_eq_decodeNone {j : Instr} (h : decodeWord w = decodeNone w j) (hj : j.isEvent = false) :
    decodePort w = decodeNone w j :=
  decodePort_eq_of_commands h fun i hi => by obtain ⟨-, rfl⟩ := decodeNone_eq_ok hi; exact hj

theorem decodePort_of_op_init (h : (opField w).toNat = 0x1) : decodePort w = decodeInit w :=
  decodePort_eq_of_commands (decodeWord_of_op_init (BitVec.eq_of_toNat_eq h)) fun i hi => by
    obtain ⟨-, -, rfl⟩ := decodeInit_eq_ok hi; rfl

theorem decodePort_of_op_send (h : (opField w).toNat = 0x2) : decodePort w = decodeByte w .send :=
  decodePort_eq_decodeByte (decodeWord_of_op_send (BitVec.eq_of_toNat_eq h)) fun _ => rfl

theorem decodePort_of_op_pend (h : (opField w).toNat = 0x3) : decodePort w = decodeNone w .pend :=
  decodePort_eq_decodeNone (decodeWord_of_op_pend (BitVec.eq_of_toNat_eq h)) rfl

theorem decodePort_of_op_read (h : (opField w).toNat = 0x4) : decodePort w = decodeNone w .read :=
  decodePort_eq_decodeNone (decodeWord_of_op_read (BitVec.eq_of_toNat_eq h)) rfl

theorem decodePort_of_op_stat (h : (opField w).toNat = 0x5) : decodePort w = decodeNone w .stat :=
  decodePort_eq_decodeNone (decodeWord_of_op_stat (BitVec.eq_of_toNat_eq h)) rfl

theorem decodePort_of_op_clrovf (h : (opField w).toNat = 0x6) : decodePort w = decodeNone w .clrovf :=
  decodePort_eq_decodeNone (decodeWord_of_op_clrovf (BitVec.eq_of_toNat_eq h)) rfl

/-- The opcodes of the host commands are 0x1 to 0x6 (R52). -/
theorem opField_encode_of_command {i : Instr} (h : i.isEvent = false) :
    1 ≤ (opField (encode i)).toNat ∧ (opField (encode i)).toNat ≤ 6 := by
  cases i with
  | init baud hs => rw [encode, opField_formatInit]; decide
  | send b => rw [encode, opField_formatByte]; decide
  | pend => rw [encode, opField_formatNone]; decide
  | read => rw [encode, opField_formatNone]; decide
  | stat => rw [encode, opField_formatNone]; decide
  | clrovf => rw [encode, opField_formatNone]; decide
  | rxEvent b => cases h
  | txDone => cases h

theorem decodePort_eq_ok {i : Instr} (h : decodePort w = .ok i) : decodeWord w = .ok i ∧ i.isEvent = false := by
  unfold decodePort at h
  split at h
  next j hj =>
    split_ifs at h with hev
    cases h
    exact ⟨hj, by simpa using hev⟩
  next => cases h

/-- Every opcode but the commands' is refused on the port: what it accepts is the word of a command. -/
theorem decodePort_of_other_op (h : (opField w).toNat = 0x0 ∨ 0x7 ≤ (opField w).toNat) :
    ∃ e, decodePort w = .error e := by
  cases hd : decodePort w with
  | error e => exact ⟨e, rfl⟩
  | ok i =>
    obtain ⟨hi, hcmd⟩ := decodePort_eq_ok hd
    have hop := opField_encode_of_command hcmd
    rw [(encodeOfDecode w i hi).1] at hop
    omega

/-- The answer ILLEGAL, written out (R54). -/
theorem presentWord_of_refused (h : ∃ e, decodePort w = .error e) (s : State) :
    presentWord w s = .next { s with responses := s.responses ++ [0xC0000000] } := by
  obtain ⟨e, he⟩ := h
  rw [presentWord_of_error he]
  rfl

/-- A word with one check: ILLEGAL where the check fails, else its command. -/
theorem presentWord_of_ite {c : Prop} [Decidable c] {e : DecodeError} {i : Instr}
    (h : decodePort w = if c then .error e else .ok i) (s : State) :
    presentWord w s =
      if c then .next { s with responses := s.responses ++ [0xC0000000] } else exec i s := by
  split_ifs at h ⊢
  · exact presentWord_of_refused ⟨e, h⟩ s
  · exact presentWord_of_ok h s

theorem refused_iff_of_ite {c : Prop} [Decidable c] {e : DecodeError} {i : Instr}
    (h : decodePort w = if c then .error e else .ok i) : (∃ e, decodePort w = .error e) ↔ c := by
  rw [h]
  split_ifs with hc <;> simp [hc]

theorem presentWord_of_op_init (h : (opField w).toNat = 0x1) (s : State) :
    presentWord w s =
      if initReserved w ≠ 0 then .next { s with responses := s.responses ++ [0xC0000000] }
      else if baudField w = 0 then .next { s with responses := s.responses ++ [0xC0000000] }
      else exec (.init (baudField w) (hsField w)) s := by
  have hd := decodePort_of_op_init h
  unfold decodeInit at hd
  split_ifs at hd ⊢
  · exact presentWord_of_refused ⟨_, hd⟩ s
  · exact presentWord_of_refused ⟨_, hd⟩ s
  · exact presentWord_of_ok hd s

theorem refused_iff_of_op_init (h : (opField w).toNat = 0x1) :
    (∃ e, decodePort w = .error e) ↔ initReserved w ≠ 0 ∨ baudField w = 0 := by
  rw [decodePort_of_op_init h, decodeInit]
  split_ifs with hr h0
  · exact iff_of_true ⟨_, rfl⟩ (.inl hr)
  · exact iff_of_true ⟨_, rfl⟩ (.inr h0)
  · exact iff_of_false (by simp) (not_or.mpr ⟨hr, h0⟩)

end Port

/-- Settles O2: each opcode's format, with the checks of its decoder. -/
theorem portDecodesInTheOrderOfChecks : Obligations.PortDecodesInTheOrderOfChecks := fun _ s =>
  ⟨fun h => presentWord_of_op_init h s,
    fun h => presentWord_of_ite (decodePort_of_op_send h) s,
    fun h => presentWord_of_ite (decodePort_of_op_pend h) s,
    fun h => presentWord_of_ite (decodePort_of_op_read h) s,
    fun h => presentWord_of_ite (decodePort_of_op_stat h) s,
    fun h => presentWord_of_ite (decodePort_of_op_clrovf h) s,
    fun h => presentWord_of_refused (decodePort_of_other_op h) s⟩

theorem refused_iff (w : Word) :
    (∃ e, decodePort w = .error e) ↔
      (opField w).toNat = 0x0 ∨ (opField w).toNat = 0x7 ∨ 0xA ≤ (opField w).toNat ∨ (opField w).toNat = 0x8 ∨
        (opField w).toNat = 0x9 ∨ ((opField w).toNat = 0x1 ∧ initReserved w ≠ 0) ∨
        ((opField w).toNat = 0x2 ∧ byteReserved w ≠ 0) ∨
        (0x3 ≤ (opField w).toNat ∧ (opField w).toNat ≤ 0x6 ∧ noneReserved w ≠ 0) ∨
        ((opField w).toNat = 0x1 ∧ baudField w = 0) := by
  have hops : (opField w).toNat = 0x1 ∨ (opField w).toNat = 0x2 ∨ (opField w).toNat = 0x3 ∨
      (opField w).toNat = 0x4 ∨ (opField w).toNat = 0x5 ∨ (opField w).toNat = 0x6 ∨
      ((opField w).toNat = 0x0 ∨ 0x7 ≤ (opField w).toNat) := by omega
  rcases hops with h | h | h | h | h | h | h
  · rw [refused_iff_of_op_init h]; simp [h]
  · rw [refused_iff_of_ite (decodePort_of_op_send h)]; simp [h]
  · rw [refused_iff_of_ite (decodePort_of_op_pend h)]; simp [h]
  · rw [refused_iff_of_ite (decodePort_of_op_read h)]; simp [h]
  · rw [refused_iff_of_ite (decodePort_of_op_stat h)]; simp [h]
  · rw [refused_iff_of_ite (decodePort_of_op_clrovf h)]; simp [h]
  · exact iff_of_true (decodePort_of_other_op h) (by omega)

/-- Settles O3: opcode by opcode, by the checks of its format; a refused word is answered ILLEGAL. -/
theorem illegalWordsAreThese : Obligations.IllegalWordsAreThese := fun w =>
  ⟨refused_iff w, presentWord_of_refused⟩

/-! ### Words as the assembler writes them (R56, R57) -/

/-- The fields of a F_BYTE word, at their places and put together by "or". -/
theorem formatByte_eq_or (op : BitVec 4) (b : Byte) :
    formatByte op b = op.setWidth 32 <<< 28 ||| b.setWidth 32 := by
  have h := BitVec.setWidth_append_append_eq_shiftLeft_setWidth_or (b := op) (b' := 0#20) (b'' := b) (w''' := 32)
  simpa [formatByte] using h

theorem formatInit_eq_or (baud : BitVec 24) (hs : Bool) :
    formatInit baud hs = 0x1#32 <<< 28 ||| (BitVec.ofBool hs).setWidth 32 <<< 24 ||| baud.setWidth 32 := by
  have h := BitVec.setWidth_append_append_append_eq_shiftLeft_setWidth_or (b := 0x1#4) (b' := 0#3)
    (b'' := BitVec.ofBool hs) (b''' := baud) (w'''' := 32)
  simpa [formatInit] using h

/-- Settles O6: the table's sums are the formats' fields at their places. -/
theorem wordsOfTheAssemblerTable : Obligations.WordsOfTheAssemblerTable :=
  ⟨formatInit_eq_or, formatByte_eq_or 0x2#4, formatByte_eq_or 0x8#4, rfl, rfl, rfl, rfl, rfl⟩

/-- A text up to its first NUL, which nothing before it is. -/
theorem takeWhile_ne_zero_append {text : List Byte} (h : ∀ b ∈ text, b ≠ 0) (rest : List Byte) :
    (text ++ 0 :: rest).takeWhile (· != 0) = text := by
  rw [List.takeWhile_append_of_pos fun b hb => bne_iff_ne.mpr (h b hb), List.takeWhile_cons_of_neg (by simp),
    List.append_nil]

theorem takeWhile_ne_zero {text : List Byte} (h : ∀ b ∈ text, b ≠ 0) : text.takeWhile (· != 0) = text :=
  List.takeWhile_eq_self_iff.mpr fun b hb => bne_iff_ne.mpr (h b hb)

/-- The SENDs before the terminator send no NUL. -/
theorem count_sendArray_takeWhile (text : List Byte) :
    (sendArray (text.takeWhile (· != 0))).count (.send 0) = 0 := by
  rw [List.count_eq_zero]
  intro hmem
  obtain ⟨b, hb, hsend⟩ := List.mem_map.mp hmem
  cases hsend
  simpa using List.mem_takeWhile_imp hb

/-- Settles O10: `SENDSTR` takes its text up to the first NUL. -/
theorem stringExpansion : Obligations.StringExpansion := by
  refine ⟨fun bs => ⟨List.length_map _, fun k hk => ?_⟩, rfl, fun text h => ⟨?_, fun rest => ?_⟩, fun text => ?_⟩
  · rw [sendArray, List.getElem?_map, List.getElem?_eq_getElem hk, Option.map_some]
  · rw [sendString, takeWhile_ne_zero h, sendArray]
  · rw [sendString, takeWhile_ne_zero_append h, sendArray]
  · rw [sendString, List.count_append, count_sendArray_takeWhile, List.count_singleton_self]

/-- Settles O9: the assembler's own check. -/
theorem assemblerRefusesBadInit : Obligations.AssemblerRefusesBadInit := by
  intro baud hs i
  unfold assembleInit
  split_ifs with h
  · simp [h, eq_comm, beq_eq_decide]
  · exact iff_of_false (by simp) fun ⟨h1, h2, h3, _⟩ => h ⟨h1, h2, h3⟩

/-- Settles O1: each word is decoded. -/
theorem wordsOfTheSpecDecode : Obligations.WordsOfTheSpecDecode :=
  ⟨rfl, rfl, rfl, rfl, rfl, rfl, rfl, rfl, rfl, rfl, rfl, rfl, rfl, rfl, rfl, rfl, rfl, rfl⟩

/-! ### Answers (R50, R46) -/

theorem responseWord_status (st : Status) (d : BitVec 24) : (responseWord st d).extractLsb' 30 2 = st.code := by
  apply BitVec.eq_of_getLsbD_eq
  intro k hk
  rw [BitVec.getLsbD_extractLsb', responseWord_getLsbD, if_neg (by omega), if_neg (by omega)]
  simp [hk]

theorem responseWord_reserved (st : Status) (d : BitVec 24) : (responseWord st d).extractLsb' 24 6 = 0 := by
  apply BitVec.eq_of_getLsbD_eq
  intro k hk
  rw [BitVec.getLsbD_extractLsb', responseWord_getLsbD, if_neg (by omega), if_pos (by omega)]
  simp

/-- The host reads the data that was answered. -/
theorem responseData_responseWord (st : Status) (d : BitVec 24) : responseData (responseWord st d) = d := by
  apply BitVec.eq_of_getLsbD_eq
  intro k hk
  rw [responseData, BitVec.getLsbD_extractLsb', responseWord_getLsbD, if_pos (by omega)]
  simp [hk]

/-- Settles O8: bit by bit. -/
theorem responseWordFields : Obligations.ResponseWordFields :=
  ⟨fun st d => ⟨responseWord_status st d, responseWord_reserved st d, responseData_responseWord st d⟩,
    responseWord_ok_zero, responseWord_empty_zero, responseWord_notInit_zero, responseWord_illegal_zero⟩

/-- One answer more than before, its reserved bits 0, and nothing changed of what is held. -/
def AnswersOnce (s t : State) : Prop :=
  t.held = s.held ∧ ∃ r : Word, t.responses = s.responses ++ [r] ∧ r.extractLsb' 24 6 = 0

/-- `respond` answers once, whatever else of the state was changed before it. -/
theorem answersOnce_respond {s u : State} (hheld : u.held = s.held) (hresp : u.responses = s.responses)
    (st : Status) (d : BitVec 24) : AnswersOnce s (respond st d u) :=
  ⟨hheld, responseWord st d, by rw [respond_responses, hresp], responseWord_reserved st d⟩

/-- An event answers nothing and moves nothing of the host (R55). -/
theorem host_of_exec_event {i : Instr} {s t : State} (hi : i.isEvent = true) (e : exec i s = .next t) :
    t.responses = s.responses ∧ t.held = s.held := by
  cases i with
  | rxEvent b =>
    obtain ⟨-, -, -, -, -, -, -, -, hresp, hheld, -⟩ := (sameButReceive_of_rxEvent e).1
    exact ⟨hresp, hheld⟩
  | txDone => obtain ⟨-, ⟨-, rfl⟩ | ⟨-, rfl⟩⟩ := execTxDone_cases e <;> exact ⟨rfl, rfl⟩
  | _ => cases hi

/-- A command is held behind the byte in flight, or answers once (R12, R46). -/
theorem held_or_answersOnce_of_exec {i : Instr} {s t : State} (hi : i.isEvent = false)
    (e : exec i s = .next t) :
    (t = hold i s ∧ s.txBusy = true ∧ ((∃ b, i = .send b) ∨ ∃ baud hs, i = .init baud hs)) ∨
      AnswersOnce s t := by
  cases i with
  | init baud hs =>
    obtain ⟨-, ⟨-, rfl⟩ | ⟨-, hb, rfl⟩ | ⟨-, -, rfl⟩⟩ := execInit_cases e
    · exact .inr (answersOnce_respond rfl rfl _ _)
    · exact .inl ⟨rfl, hb, .inr ⟨_, _, rfl⟩⟩
    · exact .inr (answersOnce_respond rfl rfl _ _)
  | send b =>
    obtain ⟨-, ⟨-, rfl⟩ | ⟨-, hb, rfl⟩ | ⟨-, -, rfl⟩⟩ := execSend_cases e
    · exact .inr (answersOnce_respond rfl rfl _ _)
    · exact .inl ⟨rfl, hb, .inl ⟨_, rfl⟩⟩
    · exact .inr (answersOnce_respond rfl rfl _ _)
  | pend => obtain ⟨-, rfl⟩ := execPend_cases e; exact .inr (answersOnce_respond rfl rfl _ _)
  | read =>
    obtain ⟨-, ⟨-, rfl⟩ | ⟨-, -, rfl⟩⟩ := execRead_cases e <;> exact .inr (answersOnce_respond rfl rfl _ _)
  | stat => obtain ⟨-, rfl⟩ := execStat_cases e; exact .inr (answersOnce_respond rfl rfl _ _)
  | clrovf => obtain ⟨-, rfl⟩ := execClrovf_cases e; exact .inr (answersOnce_respond rfl rfl _ _)
  | rxEvent b => cases hi
  | txDone => cases hi

/-- Settles O48: by what an event and what a command does to the host. -/
theorem oneAnswerPerCommand : Obligations.OneAnswerPerCommand := fun _ _ _ e =>
  ⟨fun hi => host_of_exec_event hi e, fun hi => held_or_answersOnce_of_exec hi e⟩

/-! ### A word placed for the next step (log entry 9) -/

theorem tableWord_toNat (w : Word) : tableWord 32 w.toNat = w := by
  rw [tableWord, Nat.mod_eq_of_lt w.isLt, BitVec.ofNat_toNat, BitVec.setWidth_eq]

/-- The word of a command is placed on the port, with a turn of the host. -/
theorem placeWord_encode_of_command {i : Instr} (hwf : i.wellFormed = true) (hi : i.isEvent = false) (s : State) :
    placeWord (encode i) s =
      { s with script := .host :: s.script, held := none, hostQueue := .word (encode i) :: s.hostQueue } := by
  rw [placeWord, decodeWord_encode hwf]
  cases i with
  | rxEvent b => cases hi
  | txDone => cases hi
  | _ => rfl

theorem decodePort_encode {i : Instr} (hwf : i.wellFormed = true) (hi : i.isEvent = false) :
    decodePort (encode i) = .ok i := by
  rw [decodePort_of_decodeWord (decodeWord_encode hwf), hi, if_neg Bool.false_ne_true]

theorem step_placeWord_of_command {s : State} {i : Instr} (hc : s.cfg.WellFormed) (hwf : i.wellFormed = true)
    (hi : i.isEvent = false) : step (placeWord (encode i) s) = exec i { s with held := none } := by
  rw [placeWord_encode_of_command hwf hi,
    step_of_script (s := { s with script := _, held := none, hostQueue := _ }) hc rfl]
  exact presentWord_of_ok (decodePort_encode hwf hi) _

theorem step_placeWord_of_event {s : State} {i : Instr} (hc : s.cfg.WellFormed) (hi : i.isEvent = true) :
    step (placeWord (encode i) s) = exec i s := by
  cases i with
  | rxEvent b =>
    rw [placeWord, decodeWord_encode rfl]
    exact step_of_script (s := { s with script := .rx b :: s.script }) hc rfl
  | txDone =>
    rw [placeWord, decodeWord_encode rfl]
    exact step_of_script (s := { s with script := .txDone :: s.script }) hc rfl
  | _ => cases hi

/-- Settles O12: a command is placed on the port, an event as its agent's turn. -/
theorem placedWordIsRun : Obligations.PlacedWordIsRun := by
  intro s i hc hwf
  rw [State.withFetchWord, tableWord_toNat]
  split_ifs with hi
  · exact step_placeWord_of_event hc hi
  · exact step_placeWord_of_command hc hwf (by simpa using hi)

/-! ### The RECV loop (R57) -/

/-- No instruction touches the host's stream. -/
theorem hostQueue_of_exec {i : Instr} {s t : State} (e : exec i s = .next t) : t.hostQueue = s.hostQueue := by
  cases i with
  | init baud hs => obtain ⟨-, ⟨-, rfl⟩ | ⟨-, -, rfl⟩ | ⟨-, -, rfl⟩⟩ := execInit_cases e <;> rfl
  | send b => obtain ⟨-, ⟨-, rfl⟩ | ⟨-, -, rfl⟩ | ⟨-, -, rfl⟩⟩ := execSend_cases e <;> rfl
  | pend => obtain ⟨-, rfl⟩ := execPend_cases e; rfl
  | read => obtain ⟨-, ⟨-, rfl⟩ | ⟨-, -, rfl⟩⟩ := execRead_cases e <;> rfl
  | stat => obtain ⟨-, rfl⟩ := execStat_cases e; rfl
  | clrovf => obtain ⟨-, rfl⟩ := execClrovf_cases e; rfl
  | rxEvent b =>
    obtain ⟨-, -, -, -, -, -, -, -, -, -, hqueue⟩ := (sameButReceive_of_rxEvent e).1
    exact hqueue
  | txDone => obtain ⟨-, ⟨-, rfl⟩ | ⟨-, rfl⟩⟩ := execTxDone_cases e <;> rfl

theorem hostQueue_of_presentWord {w : Word} {s t : State} (e : presentWord w s = .next t) :
    t.hostQueue = s.hostQueue := by
  cases hd : decodePort w with
  | error er => rw [presentWord_of_error hd] at e; cases e; rfl
  | ok i => rw [presentWord_of_ok hd] at e; exact hostQueue_of_exec e

/-- Without a loop in progress there is nothing to say. -/
theorem recvSound_of_not_mem {s : State} (h : HostItem.poll ∉ s.hostQueue) : RecvSound s :=
  ⟨fun hmem => h (List.mem_of_mem_tail hmem), fun hhead => absurd (List.mem_of_mem_head? hhead) h⟩

/-- With a loop in progress at the head, the data of the last answer vouches for the count. -/
theorem recvSound_of_poll {s : State} {rest : List HostItem} (hq : s.hostQueue = .poll :: rest)
    (hrest : HostItem.poll ∉ rest) (hheld : s.held = none) (hcnt : lastData s ≠ 0 → s.cnt ≠ 0) : RecvSound s := by
  refine ⟨?_, fun _ => ⟨hheld, hcnt⟩⟩
  rw [hq]
  exact hrest

/-- While the host holds a command, no loop is in progress. -/
theorem RecvSound.not_mem_of_held {s : State} {i : Instr} (h : RecvSound s) (hh : s.held = some i) :
    HostItem.poll ∉ s.hostQueue := by
  obtain ⟨htail, hhead⟩ := h
  cases hq : s.hostQueue with
  | nil => simp
  | cons x rest =>
    rw [hq] at htail hhead
    intro hmem
    rcases List.mem_cons.mp hmem with rfl | hmem
    · obtain ⟨hnone, -⟩ := hhead rfl
      rw [hh] at hnone
      cases hnone
    · exact htail hmem

theorem lastData_respond (st : Status) (d : BitVec 24) (s : State) : lastData (respond st d s) = d := by
  simp only [lastData, respond_responses, List.getLast?_concat, responseData_responseWord]

theorem zext24_ne_zero {c : BitVec 16} (h : zext24 c ≠ 0) : c ≠ 0 := by
  rintro rfl
  exact h rfl

/-- A PEND that the loop presents answers the count itself. -/
theorem recvSound_of_pend {s t : State} {rest : List HostItem} (e : presentWord (encode .pend) s = .next t)
    (hq : s.hostQueue = .poll :: rest) (hrest : HostItem.poll ∉ rest) (hheld : s.held = none) : RecvSound t := by
  rw [presentWord_of_ok decodePort_encode_pend] at e
  obtain ⟨-, rfl⟩ := execPend_cases e
  refine recvSound_of_poll hq hrest hheld fun hdata => ?_
  rw [lastData_respond] at hdata
  exact zext24_ne_zero hdata

/-- A turn of a line keeps the loop sound: it answers nothing and takes no byte off the buffer. -/
theorem RecvSound.after_event {i : Instr} {s t : State} (h : RecvSound s) (hp : s.cfg.ovfPolicy ≠ .sourceCompat)
    (hi : i.isEvent = true) (e : exec i s = .next t) : RecvSound t := by
  obtain ⟨hresp, hheld⟩ := host_of_exec_event hi e
  have hqueue := hostQueue_of_exec e
  have hread : i ≠ .read := by rintro rfl; cases hi
  have hle := cnt_le_of_exec hp e
  rw [if_neg hread, Nat.add_zero] at hle
  have hlast : lastData t = lastData s := by rw [lastData, lastData, hresp]
  obtain ⟨htail, hhead⟩ := h
  rw [RecvSound, hqueue, hheld, hlast]
  refine ⟨htail, fun hpoll => ?_⟩
  obtain ⟨hnone, hcnt⟩ := hhead hpoll
  refine ⟨hnone, fun hdata hz => ?_⟩
  have hpos := count_pos (hcnt hdata)
  rw [hz] at hle
  exact absurd hle (Nat.not_le.mpr hpos)

/-- Taking a turn moves nothing of the host. -/
theorem RecvSound.after_takeTurn {s : State} (h : RecvSound s) : RecvSound (takeTurn s) := by
  have hlast : lastData (takeTurn s) = lastData s := by rw [lastData, lastData, takeTurn_responses]
  rwa [RecvSound, takeTurn_hostQueue, takeTurn_held, takeTurn_cnt, hlast]

/-- A word that the host presents keeps the loop sound: PEND by its answer, and no other word leaves a loop in
progress. -/
theorem RecvSound.after_present {s t : State} {w : Word} {rest : List HostItem} (h : RecvSound s)
    (hh : s.held = none) (hp : hostPresents s = some (w, rest))
    (e : presentWord w { takeTurn s with hostQueue := rest } = .next t) : RecvSound t := by
  have hheld : (takeTurn s).held = none := (takeTurn_held s).trans hh
  have leaves (hrest : HostItem.poll ∉ rest) : RecvSound t :=
    recvSound_of_not_mem (by rw [hostQueue_of_presentWord e]; exact hrest)
  obtain ⟨htail, -⟩ := h
  cases hq : s.hostQueue with
  | nil => rw [hostPresents_of_nil hq] at hp; cases hp
  | cons x tail =>
    rw [hq, List.tail_cons] at htail
    cases x with
    | word v => rw [hostPresents_of_word hq] at hp; cases hp; exact leaves htail
    | recv => rw [hostPresents_of_recv hq] at hp; cases hp; exact recvSound_of_pend e rfl htail hheld
    | poll =>
      by_cases h0 : lastData s = 0
      · rw [hostPresents_of_poll_zero hq h0] at hp; cases hp; exact recvSound_of_pend e rfl htail hheld
      · rw [hostPresents_of_poll_ne_zero hq h0] at hp; cases hp; exact leaves htail

theorem RecvSound.after_step {s t : State} (h : RecvSound s) (hp : s.cfg.ovfPolicy ≠ .sourceCompat)
    (e : step s = .next t) : RecvSound t := by
  have hc := wellFormed_of_step e
  have hp' : (takeTurn s).cfg.ovfPolicy ≠ .sourceCompat := by rwa [takeTurn_cfg]
  cases hn : nextTurn s with
  | rx b => rw [step_of_nextTurn hc hn] at e; exact h.after_takeTurn.after_event hp' (i := .rxEvent b) rfl e
  | txDone => rw [step_of_nextTurn hc hn] at e; exact h.after_takeTurn.after_event hp' (i := .txDone) rfl e
  | host =>
    cases hh : s.held with
    | some i =>
      rw [step_of_held hc hn hh] at e
      refine recvSound_of_not_mem ?_
      rw [hostQueue_of_exec e, takeTurn_hostQueue]
      exact h.not_mem_of_held hh
    | none =>
      cases hw : hostPresents s with
      | none => rw [step_of_hostPresents_none hc hn hh hw] at e; cases e; exact h.after_takeTurn
      | some p => rw [step_of_hostPresents hc hn hh hw] at e; exact h.after_present hh hw e

/-- Only the host issues a READ. -/
theorem nextTurn_of_issued_read {s : State} (hi : issued s = some .read) : nextTurn s = .host := by
  cases hn : nextTurn s with
  | host => rfl
  | rx b => rw [issued, hn] at hi; cases hi
  | txDone => rw [issued, hn] at hi; cases hi

/-- A loop that issues READ has seen data other than 0. -/
theorem lastData_ne_zero_of_issued_read {s : State} {rest : List HostItem} (hq : s.hostQueue = .poll :: rest)
    (hh : s.held = none) (hi : issued s = some .read) : lastData s ≠ 0 := by
  intro h0
  rw [issued, nextTurn_of_issued_read hi, hh, hostPresents_of_poll_zero hq h0] at hi
  cases hi

/-- The READ of a sound loop answers a byte, and the loop is finished. -/
theorem RecvSound.read_answers {s t : State} {rest : List HostItem} (h : RecvSound s)
    (hq : s.hostQueue = .poll :: rest) (hi : issued s = some .read) (e : step s = .next t) :
    ∃ b : Byte, t.responses = s.responses ++ [b.setWidth 32] ∧ t.hostQueue = rest := by
  obtain ⟨-, hhead⟩ := h
  obtain ⟨hh, hcnt⟩ := hhead (by rw [hq, List.head?_cons])
  have hdata := lastData_ne_zero_of_issued_read hq hh hi
  rw [step_of_hostPresents (wellFormed_of_step e) (nextTurn_of_issued_read hi) hh
    (hostPresents_of_poll_ne_zero hq hdata), presentWord_of_ok decodePort_encode_read] at e
  obtain ⟨b, -, hresp⟩ := unread_of_execRead e (by rw [takeTurn_cnt]; exact hcnt hdata)
  exact ⟨b, by rw [hresp, takeTurn_responses], hostQueue_of_exec e⟩

/-- Settles O43: a step keeps the loop sound, and a sound loop reads only once the count is not 0. -/
theorem recvNeverReadsEmpty : Obligations.RecvNeverReadsEmpty := by
  intro s t _ hp h e
  refine ⟨h.after_step hp e, fun hpoll hi => ?_⟩
  obtain ⟨rest, hq⟩ := List.head?_eq_some_iff.mp hpoll
  rw [hq, List.tail_cons]
  exact h.read_answers hq hi e

end Sys2Proof.Machine

/-! SUPPORT. The divisor by the quotient it is computed from, the outcomes of an INIT, and the obligations about
INIT (40_init.md). -/

namespace Sys2Proof.Machine

section Divisor

variable {f : Nat} {baud : BitVec 24} {hs : Bool}

/-- What F_CLK is divided by is never 0: the only writer of `div` has a positive baud rate. -/
theorem multiplier_mul_baud_pos (hbaud : baud ≠ 0) : 0 < multiplier hs * baud.toNat := by
  have hm : 0 < multiplier hs := by cases hs <;> decide
  exact Nat.mul_pos hm (Nat.pos_of_ne_zero (BitVec.toNat_ne.mp hbaud))

/-- The register holds the quotient less 1, reduced over the integers (R59). -/
theorem divisor_toNat (f : Nat) (baud : BitVec 24) (hs : Bool) :
    ((divisor f baud hs).toNat : Int) = (((f / (multiplier hs * baud.toNat) : Nat) : Int) - 1) % 65536 := by
  rw [divisor, BitVec.toNat_ofInt]
  exact Int.toNat_of_nonneg (Int.emod_nonneg _ (by decide))

/-- A clock slower than the rate asked for has quotient 0, and 0 less 1 wraps. -/
theorem divisor_of_lt (h : f < multiplier hs * baud.toNat) : divisor f baud hs = 0xFFFF := by
  rw [divisor, Nat.div_eq_of_lt h]
  rfl

/-- A clock of the rate asked for, and of less than twice that, has quotient 1. -/
theorem divisor_of_lt_two_mul (hle : multiplier hs * baud.toNat ≤ f)
    (hlt : f < 2 * (multiplier hs * baud.toNat)) : divisor f baud hs = 0 := by
  have hq : f / (multiplier hs * baud.toNat) = 1 := Nat.div_eq_of_lt_le (by rwa [Nat.one_mul]) hlt
  rw [divisor, hq]
  rfl

/-- A quotient that fits in 16 bits once 1 is taken off is not reduced. -/
theorem divisor_toNat_add_one (hpos : 1 ≤ f / (multiplier hs * baud.toNat))
    (hle : f / (multiplier hs * baud.toNat) ≤ 65536) :
    (divisor f baud hs).toNat + 1 = f / (multiplier hs * baud.toNat) := by
  have hd := divisor_toNat f baud hs
  generalize f / (multiplier hs * baud.toNat) = q at *
  omega

end Divisor

/-- Settles O16: the formula is the definition read as an integer, and each corner is its quotient's size. -/
theorem divisorFormula : Obligations.DivisorFormula := by
  refine ⟨fun f baud hs _ _ => ?_, by decide, by decide, by decide, by decide⟩
  exact ⟨divisor_toNat f baud hs, divisor_of_lt, divisor_of_lt_two_mul, divisor_toNat_add_one⟩

/-- An INIT with a positive baud rate is held while a byte is in flight (R60). -/
theorem exec_init_of_busy {s : State} {baud : BitVec 24} (hc : s.cfg.WellFormed) (h0 : baud ≠ 0)
    (hb : s.txBusy = true) (hs : Bool) : exec (.init baud hs) s = .next (hold (.init baud hs) s) := by
  rw [exec, execInit, onLegalConfig_of_wellFormed hc, if_neg h0, if_pos hb]

/-- The answer of an accepted command that returns no data is one word of 0. -/
theorem respond_ok_zero (s : State) :
    respond .ok 0 s = { s with responses := s.responses ++ [0x00000000] } := by
  rw [respond, show responseWord .ok 0 = 0x00000000 from responseWord_ok_zero]

/-- Settles O15: turned away, held or accepted. -/
theorem initConfigures : Obligations.InitConfigures := by
  intro baud hs s hc
  refine ⟨?zero, fun h0 hb => exec_init_of_busy hc h0 hb hs, fun h0 hb => ?idle⟩
  case zero =>
    rintro rfl
    exact exec_init_of_zero hc hs
  case idle =>
    rw [exec_init_of_idle hc h0 hb, respond_ok_zero]
    rfl

/-- What INIT writes is a function of its operands and the configuration, so writing it over an answered INIT
changes nothing (R37, R62). -/
theorem configure_respond_configure (baud : BitVec 24) (hs : Bool) (st : Status) (d : BitVec 24) (s : State) :
    configure baud hs (respond st d (configure baud hs s)) = respond st d (configure baud hs s) := rfl

/-- Settles O17: the accepted INIT leaves the transmitter idle, so the second is accepted and writes the same. -/
theorem reInitIsIdempotent : Obligations.ReInitIsIdempotent := by
  intro baud hs s t h0 hb e
  obtain ⟨hc, -⟩ := execInit_cases e
  rw [exec_init_of_idle hc h0 hb] at e
  cases e
  rw [exec_init_of_idle (s := respond .ok 0 (configure baud hs s)) hc h0 hb, configure_respond_configure,
    respond_ok_zero]

end Sys2Proof.Machine

/-! SUPPORT. What the host's SENDs become on the line, step by step and in the turns of a program, and the
obligations about the transmitter (41_transmit.md). -/

namespace Sys2Proof.Machine

/-! ### SEND and TX_DONE, one at a time (R63, R64) -/

/-- A SEND is held while a byte is in flight (R63). -/
theorem exec_send_of_busy {s : State} (hc : s.cfg.WellFormed) (hen : s.txEn = true) (hb : s.txBusy = true)
    (b : Byte) : exec (.send b) s = .next (hold (.send b) s) := by
  rw [exec, execSend, onLegalConfig_of_wellFormed hc, hen, if_neg (by decide), if_pos hb]

/-- Settles O18: before any INIT, behind a byte in flight, and on an idle transmitter. -/
theorem sendStartsTransmission : Obligations.SendStartsTransmission := by
  intro b s hc
  refine ⟨fun hen => ?off, fun hen hb => exec_send_of_busy hc hen hb b, fun hen hb => ?idle⟩
  case off =>
    rw [exec_send_of_off hc hen, raise, respond,
      show responseWord .notInit 0 = 0x80000000 from responseWord_notInit_zero]
  case idle => rw [exec_send_of_idle hc hen hb, respond_ok_zero]

/-- Settles O19: busy with the completion path on is what enables the TX_DONE. -/
theorem txDoneCompletesTheByte : Obligations.TxDoneCompletesTheByte := fun _ hc hb hie =>
  exec_txDone_of_enabled hc (txDoneEnabled_iff.mpr ⟨hb, hie⟩)

/-- Settles O20: any other state does not enable it. -/
theorem disabledTxDoneTurnPasses : Obligations.DisabledTxDoneTurnPasses := fun _ hc hnot =>
  exec_txDone_of_disabled hc (Bool.eq_false_iff.mpr fun h => hnot (txDoneEnabled_iff.mp h))

/-! ### The accepted SENDs (R65) -/

/-- Settles O21: what was sent is what has departed and then at most one byte in flight. -/
theorem wireIsTheSentBytesInOrder : Obligations.WireIsTheSentBytesInOrder := by
  intro s h r
  refine ⟨r.sentBytes_eq, ⟨inFlight s, r.sentBytes_eq.symm⟩, ?_⟩
  rw [r.sentBytes_eq, List.length_append]
  exact Nat.add_le_add_left (inFlight_length_le s) _

/-! ### The two lines (R64, R68) -/

/-- The state after the byte in flight has departed. -/
def afterDeparture (s : State) : State := { emitTx s.txShift s with txBusy := false }

/-- A RX_EVENT neither reads nor writes what a departure writes (R68, R69). -/
theorem exec_rxEvent_afterDeparture {b : Byte} {s t : State} (e : exec (.rxEvent b) s = .next t) :
    exec (.rxEvent b) (afterDeparture s) = .next (afterDeparture t) := by
  obtain ⟨hc, ⟨hrx, rfl⟩ | ⟨hrx, hnf, hw, rfl⟩ | ⟨hrx, hf, hp, hw, rfl⟩ | ⟨hrx, hf, hp, rfl⟩ |
    ⟨hrx, hf, hp, hw, rfl⟩⟩ := execRxEvent_cases e
  · exact exec_rxEvent_of_disabled (s := afterDeparture _) hc hrx b
  · exact exec_rxEvent_of_not_full (s := afterDeparture s) hc hrx hnf hw b
  · rw [exec_rxEvent_of_full (s := afterDeparture s) hc hrx hf,
      rxFull_of_overwriteOldest (s := afterDeparture s) hp hw]
    rfl
  · rw [exec_rxEvent_of_full (s := afterDeparture s) hc hrx hf, rxFull_of_dropNewest (s := afterDeparture s) hp]
    rfl
  · rw [exec_rxEvent_of_full (s := afterDeparture s) hc hrx hf,
      rxFull_of_sourceCompat (s := afterDeparture s) hp hw]
    rfl

/-- Settles O57: the RX_EVENT does not move what enables the TX_DONE, and each leaves the other's fields. -/
theorem lineEventsCommute : Obligations.LineEventsCommute := by
  intro b s t u hrx hdone
  obtain ⟨hc, -⟩ := execRxEvent_cases hrx
  obtain ⟨-, -, -, -, hie, hbusy, -⟩ := (sameButReceive_of_rxEvent hrx).1
  have hsame : txDoneEnabled t = txDoneEnabled s := by rw [txDoneEnabled, txDoneEnabled, hbusy, hie]
  obtain ⟨-, ⟨h, rfl⟩ | ⟨h, rfl⟩⟩ := execTxDone_cases hdone
  · exact ⟨afterDeparture s, exec_txDone_of_enabled hc (hsame ▸ h), exec_rxEvent_afterDeparture hrx⟩
  · exact ⟨s, exec_txDone_of_disabled hc (hsame ▸ h), hrx⟩

/-! ### A held command without a TX_DONE (R66) -/

theorem SameButReceive.refl (s : State) : SameButReceive s s :=
  ⟨rfl, rfl, rfl, rfl, rfl, rfl, rfl, rfl, rfl, rfl, rfl⟩

/-- The line and the answers are as before. -/
structure SameLine (s t : State) : Prop where
  txBusy : t.txBusy = s.txBusy
  txShift : t.txShift = s.txShift
  txWire : t.txWire = s.txWire
  responses : t.responses = s.responses

theorem SameLine.trans {s t u : State} (h : SameLine s t) (k : SameLine t u) : SameLine s u :=
  ⟨k.txBusy.trans h.txBusy, k.txShift.trans h.txShift, k.txWire.trans h.txWire, k.responses.trans h.responses⟩

theorem SameButReceive.sameLine {s t : State} (h : SameButReceive s t) : SameLine s t := by
  obtain ⟨-, -, -, -, -, hbusy, hshift, hwire, hresp, -⟩ := h
  exact ⟨hbusy, hshift, hwire, hresp⟩

theorem SameButReceive.txEn {s t : State} (h : SameButReceive s t) : t.txEn = s.txEn := by
  obtain ⟨-, -, -, htxEn, -⟩ := h
  exact htxEn

theorem SameButReceive.held {s t : State} (h : SameButReceive s t) : t.held = s.held := by
  obtain ⟨-, -, -, -, -, -, -, -, -, hheld, -⟩ := h
  exact hheld

theorem SameButReceive.hostQueue {s t : State} (h : SameButReceive s t) : t.hostQueue = s.hostQueue := by
  obtain ⟨-, -, -, -, -, -, -, -, -, -, hqueue⟩ := h
  exact hqueue

/-- A claim that every turn of some kind keeps, holds along any such turns. -/
theorem runSteps_turns {P : State → Prop} {kind : Turn → Prop}
    (keeps : ∀ {s turn ts}, Inv s → P s → kind turn → s.script = turn :: ts →
      ∃ t, step s = .next t ∧ P t ∧ t.script = ts)
    {turns rest : List Turn} {s : State} (hinv : Inv s) (h : P s) (hturns : ∀ x ∈ turns, kind x)
    (hs : s.script = turns ++ rest) :
    ∃ t, runSteps turns.length s = .next t ∧ P t ∧ t.script = rest ∧
      ∀ m < turns.length, ∀ u, runSteps m s = .next u → P u := by
  induction turns generalizing s with
  | nil => exact ⟨s, rfl, h, hs, fun m hm => absurd hm (Nat.not_lt_zero m)⟩
  | cons x turns ih =>
    obtain ⟨hx, hturns⟩ := List.forall_mem_cons.mp hturns
    obtain ⟨u, hstep, hu, hscript⟩ := keeps hinv h hx hs
    obtain ⟨t, hrun, ht, hrest, hall⟩ := ih (stepKeepsTheInvariant s u hinv hstep) hu hturns hscript
    refine ⟨t, (runSteps_succ hstep _).trans hrun, ht, hrest, fun m hm v hv => ?_⟩
    cases m with
    | zero => cases hv; exact h
    | succ m => exact hall m (Nat.lt_of_succ_lt_succ hm) v ((runSteps_succ hstep m).symm.trans hv)

/-- The retry of a held command behind a byte in flight holds it again (R12). -/
theorem exec_held_of_busy {s : State} {i : Instr} (hc : s.cfg.WellFormed) (hb : s.txBusy = true)
    (hen : s.txEn = true) (hwf : i.wellFormed = true)
    (hi : (∃ b, i = .send b) ∨ ∃ baud hs, i = .init baud hs) : exec i s = .next (hold i s) := by
  obtain ⟨b, rfl⟩ | ⟨baud, hs, rfl⟩ := hi
  · exact exec_send_of_busy hc hen hb b
  · exact exec_init_of_busy hc (by simpa [Instr.wellFormed] using hwf) hb hs

/-- With a command held behind a byte in flight, a turn of the host or of the RX line leaves the host and the
transmitter alone (R66). -/
theorem step_of_held_of_busy {s : State} {i : Instr} {turn : Turn} {ts : List Turn} (hinv : Inv s)
    (hh : s.held = some i) (hb : s.txBusy = true) (hturn : turn ≠ .txDone) (hs : s.script = turn :: ts) :
    ∃ t, step s = .next t ∧ SameButReceive s t ∧ t.script = ts := by
  cases turn with
  | host =>
    obtain ⟨hen, hwf, hi⟩ := hinv.heldCommand i hh
    have hstep : step s = exec i { s with script := ts, held := none } := by
      rw [step_of_held hinv.config (nextTurn_of_script s hs) hh, takeTurn_of_script s hs]
    have hheld := exec_held_of_busy (s := { s with script := ts, held := none }) hinv.config hb hen hwf hi
    exact ⟨_, hstep.trans hheld, ⟨rfl, rfl, rfl, rfl, rfl, rfl, rfl, rfl, rfl, hh.symm, rfl⟩, rfl⟩
  | rx b =>
    obtain ⟨t, hstep, hsame, hscript, -⟩ := step_rx ⟨hinv.config, hinv.writeCursor⟩ hs
    exact ⟨t, hstep, hsame, hscript⟩
  | txDone => exact absurd rfl hturn

/-- Settles O23: by induction over the turns, each of which leaves the host and the transmitter alone. -/
theorem heldWithoutTxDone : Obligations.HeldWithoutTxDone := by
  intro turns rest s i hinv hh hb hs hturns
  obtain ⟨t, hrun, hsame, hrest, -⟩ :=
    runSteps_turns (P := SameButReceive s) (kind := (· ≠ .txDone))
      (fun hu hsame hturn hscript => by
        have hb' := hsame.sameLine.txBusy.trans hb
        obtain ⟨v, hstep, hv, hts⟩ := step_of_held_of_busy hu (hsame.held.trans hh) hb' hturn hscript
        exact ⟨v, hstep, hsame.trans hv, hts⟩)
      hinv (.refl s) (fun x hx => ne_of_mem_of_not_mem hx hturns) hs
  have hline := hsame.sameLine
  exact ⟨t, hrun, hsame.held.trans hh, hline.txBusy.trans hb, hline.txShift, hsame.hostQueue, hline.responses,
    hline.txWire, hrest⟩

/-! ### A program of SENDs, in turns where each is completed (R67, R104) -/

/-- The host has the SENDs of exactly `bs` before it; the first may already be held. -/
def ToSend (bs : List Byte) (s : State) : Prop :=
  (s.held = none ∧ s.hostQueue = itemsOf (sendArray bs)) ∨
    ∃ b rest, bs = b :: rest ∧ s.held = some (.send b) ∧ s.hostQueue = itemsOf (sendArray rest)

theorem itemsOf_sendArray_cons (b : Byte) (bs : List Byte) :
    itemsOf (sendArray (b :: bs)) = .word (encode (.send b)) :: itemsOf (sendArray bs) := rfl

theorem decodePort_encode_send (b : Byte) : decodePort (encode (.send b)) = .ok (.send b) :=
  decodePort_encode rfl rfl

theorem ToSend.congr {bs : List Byte} {s t : State} (h : ToSend bs s) (hheld : t.held = s.held)
    (hqueue : t.hostQueue = s.hostQueue) : ToSend bs t := by
  rwa [ToSend, hheld, hqueue]

/-- With a SEND before the host, the run has not ended. -/
theorem ToSend.not_runEnded {b : Byte} {bs : List Byte} {s : State} (h : ToSend (b :: bs) s) : ¬RunEnded s := by
  rintro ⟨hqueue, hheld, -⟩
  obtain ⟨-, hq⟩ | ⟨_, _, -, hh, -⟩ := h
  · rw [hqueue] at hq; cases hq
  · rw [hheld] at hh; cases hh

theorem ToSend.runEnded {s : State} (h : ToSend [] s) (hb : s.txBusy = false) : RunEnded s := by
  obtain ⟨hheld, hqueue⟩ | ⟨_, _, hnil, -, -⟩ := h
  · exact ⟨hqueue, hheld, hb⟩
  · cases hnil

theorem not_runEnded_of_busy {s : State} (hb : s.txBusy = true) : ¬RunEnded s := by
  rintro ⟨-, -, hidle⟩
  rw [hb] at hidle
  cases hidle

theorem SameButReceive.toSend {bs : List Byte} {s t : State} (h : SameButReceive s t) (hs : ToSend bs s) :
    ToSend bs t := hs.congr h.held h.hostQueue

/-- While nothing is in flight, a turn of a line leaves the host and the transmitter alone. -/
theorem step_line_of_idle {s : State} {turn : Turn} {ts : List Turn} (hinv : Inv s) (hb : s.txBusy = false)
    (hturn : turn ≠ .host) (hs : s.script = turn :: ts) :
    ∃ t, step s = .next t ∧ SameButReceive s t ∧ t.script = ts := by
  cases turn with
  | host => exact absurd rfl hturn
  | rx b =>
    obtain ⟨t, hstep, hsame, hscript, -⟩ := step_rx ⟨hinv.config, hinv.writeCursor⟩ hs
    exact ⟨t, hstep, hsame, hscript⟩
  | txDone =>
    have hoff : txDoneEnabled { s with script := ts } = false := by simp [txDoneEnabled, hb]
    exact ⟨_, (step_of_script hinv.config hs).trans (exec_txDone_of_disabled hinv.config hoff), .refl s, rfl⟩

/-- While a byte is in flight, the host may present its next SEND, which is then held (R12, R63); no turn but a
TX_DONE moves the line. -/
theorem ToSend.step_of_busy {bs : List Byte} {s : State} {turn : Turn} {ts : List Turn} (h : ToSend bs s)
    (hinv : Inv s) (hb : s.txBusy = true) (hturn : turn ≠ .txDone) (hs : s.script = turn :: ts) :
    ∃ t, step s = .next t ∧ ToSend bs t ∧ SameLine s t ∧ t.script = ts := by
  have hc := hinv.config
  cases turn with
  | txDone => exact absurd rfl hturn
  | rx b =>
    obtain ⟨t, hstep, hsame, hscript, -⟩ := step_rx ⟨hc, hinv.writeCursor⟩ hs
    exact ⟨t, hstep, hsame.toSend h, hsame.sameLine, hscript⟩
  | host =>
    obtain ⟨hheld, hqueue⟩ | ⟨b, rest, rfl, hheld, hqueue⟩ := h
    · have hn := nextTurn_of_script s hs
      cases bs with
      | nil =>
        have hstep := step_of_hostPresents_none hc hn hheld (hostPresents_of_nil hqueue)
        rw [takeTurn_of_script s hs] at hstep
        exact ⟨_, hstep, .inl ⟨hheld, hqueue⟩, ⟨rfl, rfl, rfl, rfl⟩, rfl⟩
      | cons b bs =>
        have hstep := step_of_hostPresents hc hn hheld (hostPresents_of_word hqueue)
        rw [takeTurn_of_script s hs, presentWord_of_ok (decodePort_encode_send b)] at hstep
        have hheld := exec_send_of_busy (s := { s with script := ts, hostQueue := itemsOf (sendArray bs) }) hc
          (hinv.transmitter hb).1 hb b
        exact ⟨_, hstep.trans hheld, .inr ⟨b, bs, rfl, rfl, rfl⟩, ⟨rfl, rfl, rfl, rfl⟩, rfl⟩
    · obtain ⟨t, hstep, hsame, hscript⟩ := step_of_held_of_busy hinv hheld hb hturn hs
      exact ⟨t, hstep, hsame.toSend (.inr ⟨b, rest, rfl, hheld, hqueue⟩), hsame.sameLine, hscript⟩

/-- At the host's turn on an idle transmitter the next SEND is accepted, held before or presented now. -/
theorem ToSend.step_of_idle {b : Byte} {bs : List Byte} {s : State} {ts : List Turn} (h : ToSend (b :: bs) s)
    (hinv : Inv s) (hen : s.txEn = true) (hb : s.txBusy = false) (hs : s.script = .host :: ts) :
    ∃ t, step s = .next t ∧ ToSend bs t ∧ t.txBusy = true ∧ t.txShift = b ∧ t.txWire = s.txWire ∧
      t.responses = s.responses ++ [0x00000000] ∧ t.script = ts := by
  obtain ⟨hheld, hqueue⟩ | ⟨b, rest, heq, hheld, hqueue⟩ := h
  · have hstep := step_of_hostPresents hinv.config (nextTurn_of_script s hs) hheld (hostPresents_of_word hqueue)
    rw [takeTurn_of_script s hs, presentWord_of_ok (decodePort_encode_send b)] at hstep
    have hsend := exec_send_of_idle (s := { s with script := ts, hostQueue := itemsOf (sendArray bs) })
      hinv.config hen hb b
    exact ⟨_, hstep.trans hsend, .inl ⟨hheld, rfl⟩, rfl, rfl, rfl, rfl, rfl⟩
  · cases heq
    obtain ⟨t, hstep, hscript, hacc⟩ := step_accepts_held hinv.config hinv.heldCommand hheld hb hs
    obtain ⟨hbusy, hshift⟩ := hacc.send b rfl
    exact ⟨t, hstep, .inl ⟨hacc.held, hacc.hostQueue.trans hqueue⟩, hbusy, hshift, hacc.txWire, hacc.responses,
      hscript⟩

/-- Some steps lead from `s` to `t`, and before `t` the run has not ended (R104). -/
def RunsTo (s t : State) : Prop :=
  ∃ n, runSteps n s = .next t ∧ ∀ m < n, ∀ u, runSteps m s = .next u → ¬RunEnded u

theorem RunsTo.of_step {s t : State} (h : ¬RunEnded s) (e : step s = .next t) : RunsTo s t := by
  refine ⟨1, runSteps_one e, fun m hm u hu => ?_⟩
  obtain rfl : m = 0 := Nat.lt_one_iff.mp hm
  cases hu
  exact h

theorem RunsTo.trans {s t u : State} (h : RunsTo s t) (k : RunsTo t u) : RunsTo s u := by
  obtain ⟨n, hrun, hnot⟩ := h
  obtain ⟨m, hrun', hnot'⟩ := k
  refine ⟨n + m, (runSteps_add _ _ hrun).trans hrun', fun j hj v hv => ?_⟩
  rcases Nat.lt_or_ge j n with hlt | hge
  · exact hnot j hlt v hv
  · obtain ⟨d, rfl⟩ := Nat.exists_eq_add_of_le hge
    exact hnot' d (by omega) v ((runSteps_add _ _ hrun).symm.trans hv)

/-- The first end point of the run from `t` is that of the run from `s`. -/
theorem RunsTo.endsAt {n : Nat} {s t u : State} (h : RunsTo s t) (hend : EndsAt t n u) : ∃ m, EndsAt s m u := by
  obtain ⟨hrun, hu, hnot⟩ := hend
  obtain ⟨m, hrun', hnot'⟩ := h.trans ⟨n, hrun, hnot⟩
  exact ⟨m, hrun', hu, hnot'⟩

/-- Turns along which a claim holds that excludes the end of the run. -/
theorem RunsTo.of_turns {P : State → Prop} {kind : Turn → Prop}
    (keeps : ∀ {s turn ts}, Inv s → P s → kind turn → s.script = turn :: ts →
      ∃ t, step s = .next t ∧ P t ∧ t.script = ts)
    (hnot : ∀ {s}, P s → ¬RunEnded s) {turns rest : List Turn} {s : State} (hinv : Inv s) (h : P s)
    (hturns : ∀ x ∈ turns, kind x) (hs : s.script = turns ++ rest) :
    ∃ t, RunsTo s t ∧ Inv t ∧ P t ∧ t.script = rest := by
  obtain ⟨t, hrun, ht, hrest, hall⟩ := runSteps_turns keeps hinv h hturns hs
  exact ⟨t, ⟨_, hrun, fun m hm u hu => hnot (hall m hm u hu)⟩, hinv.after_runSteps hrun, ht, hrest⟩

/-- A transmitter that is on and idle, with the SENDs of exactly `bs` before the host. -/
structure ReadyToSend (bs : List Byte) (s : State) : Prop where
  inv : Inv s
  on : s.txEn = true
  idle : s.txBusy = false
  toSend : ToSend bs s

section Round

variable {b : Byte} {bs : List Byte} {s : State} {turns ts : List Turn}

/-- Any turns of the lines, before the next SEND is accepted. -/
theorem ReadyToSend.runsTo_of_lines (h : ReadyToSend (b :: bs) s) (hturns : Turn.host ∉ turns)
    (hs : s.script = turns ++ ts) :
    ∃ t, RunsTo s t ∧ ReadyToSend (b :: bs) t ∧ SameLine s t ∧ t.script = ts := by
  obtain ⟨t, hrun, hinv, hsame, hscript⟩ :=
    RunsTo.of_turns (P := SameButReceive s) (kind := (· ≠ .host))
      (fun hu hsame hturn hscript => by
        obtain ⟨v, hstep, hv, hts⟩ := step_line_of_idle hu (hsame.sameLine.txBusy.trans h.idle) hturn hscript
        exact ⟨v, hstep, hsame.trans hv, hts⟩)
      (fun hsame => (hsame.toSend h.toSend).not_runEnded)
      h.inv (.refl s) (fun x hx => ne_of_mem_of_not_mem hx hturns) hs
  have hline := hsame.sameLine
  exact ⟨t, hrun, ⟨hinv, hsame.txEn.trans h.on, hline.txBusy.trans h.idle, hsame.toSend h.toSend⟩, hline, hscript⟩

/-- Any turns but a TX_DONE, while the byte is in flight. -/
theorem ToSend.runsTo_of_busy (h : ToSend bs s) (hinv : Inv s) (hb : s.txBusy = true)
    (hturns : Turn.txDone ∉ turns) (hs : s.script = turns ++ ts) :
    ∃ t, RunsTo s t ∧ Inv t ∧ ToSend bs t ∧ SameLine s t ∧ t.script = ts := by
  obtain ⟨t, hrun, ht, ⟨hsend, hline⟩, hscript⟩ :=
    RunsTo.of_turns (P := fun t => ToSend bs t ∧ SameLine s t) (kind := (· ≠ .txDone))
      (fun hu ⟨hsend, hline⟩ hturn hscript => by
        obtain ⟨v, hstep, hsend', hv, hts⟩ := hsend.step_of_busy hu (hline.txBusy.trans hb) hturn hscript
        exact ⟨v, hstep, ⟨hsend', hline.trans hv⟩, hts⟩)
      (fun ⟨_, hline⟩ => not_runEnded_of_busy (hline.txBusy.trans hb))
      hinv ⟨h, ⟨rfl, rfl, rfl, rfl⟩⟩ (fun x hx => ne_of_mem_of_not_mem hx hturns) hs
  exact ⟨t, hrun, ht, hsend, hline, hscript⟩

/-- One round: the next SEND is accepted and its byte departs, with the SENDs after it still before the host. -/
theorem ReadyToSend.round {before during : List Turn} (h : ReadyToSend (b :: bs) s)
    (hbefore : Turn.host ∉ before) (hduring : Turn.txDone ∉ during)
    (hs : s.script = before ++ Turn.host :: (during ++ Turn.txDone :: ts)) :
    ∃ t, RunsTo s t ∧ ReadyToSend bs t ∧ t.txWire = s.txWire ++ [b] ∧
      t.responses = s.responses ++ [0x00000000] ∧ t.script = ts := by
  obtain ⟨s1, run1, ready1, line1, script1⟩ := h.runsTo_of_lines hbefore hs
  obtain ⟨s2, step2, send2, busy2, shift2, wire2, resp2, script2⟩ :=
    ready1.toSend.step_of_idle ready1.inv ready1.on ready1.idle script1
  have run2 := RunsTo.of_step ready1.toSend.not_runEnded step2
  have inv2 := stepKeepsTheInvariant s1 s2 ready1.inv step2
  obtain ⟨s3, run3, inv3, send3, line3, script3⟩ := send2.runsTo_of_busy inv2 busy2 hduring script2
  have busy3 := line3.txBusy.trans busy2
  obtain ⟨hen3, hie3⟩ := inv3.transmitter busy3
  have step4 := step_txDone inv3.config script3 (txDoneEnabled_iff.mpr ⟨busy3, hie3⟩)
  have run4 := RunsTo.of_step (not_runEnded_of_busy busy3) step4
  refine ⟨_, ((run1.trans run2).trans run3).trans run4,
    ⟨stepKeepsTheInvariant s3 _ inv3 step4, hen3, rfl, send3.congr rfl rfl⟩, ?_, ?_, rfl⟩
  · rw [emitTx_txWire, line3.txWire, wire2, line1.txWire, line3.txShift, shift2]
  · rw [emitTx_responses, line3.responses, resp2, line1.responses]

end Round

/-- As many rounds as SENDs: the record grows by exactly their bytes, each is answered OK, and there the run
ends. -/
theorem ReadyToSend.endsAt_of_rounds {rounds : List (List Turn × List Turn)} {before rest : List Turn}
    {bs : List Byte} {s : State} (h : ReadyToSend bs s) (hbefore : Turn.host ∉ before)
    (hrounds : ∀ r ∈ rounds, Turn.txDone ∉ r.1 ∧ Turn.host ∉ r.2) (hlen : bs.length = rounds.length)
    (hs : s.script = before ++ (rounds.flatMap fun r => Turn.host :: r.1 ++ Turn.txDone :: r.2) ++ rest) :
    ∃ n t, EndsAt s n t ∧ t.txWire = s.txWire ++ bs ∧
      t.responses = s.responses ++ List.replicate bs.length 0x00000000 ∧
      ∃ turns : List Turn, t.script = turns ++ rest ∧ Turn.host ∉ turns := by
  induction rounds generalizing before bs s with
  | nil =>
    obtain rfl := List.length_eq_zero_iff.mp hlen
    have hend : EndsAt s 0 s :=
      ⟨rfl, h.toSend.runEnded h.idle, fun m hm => absurd hm (Nat.not_lt_zero m)⟩
    exact ⟨0, s, hend, (List.append_nil _).symm, (List.append_nil _).symm, before, by simpa using hs, hbefore⟩
  | cons r rounds ih =>
    cases bs with
    | nil => cases hlen
    | cons b bs =>
      obtain ⟨⟨hduring, hafter⟩, hrounds⟩ := List.forall_mem_cons.mp hrounds
      obtain ⟨u, hrun, hready, hwire, hresp, hscript⟩ :=
        h.round hbefore hduring (ts := r.2 ++
          (rounds.flatMap fun r => Turn.host :: r.1 ++ Turn.txDone :: r.2) ++ rest) (by simpa using hs)
      obtain ⟨n, t, hend, hwire', hresp', hturns⟩ := ih hready hafter hrounds (Nat.succ.inj hlen) hscript
      obtain ⟨m, hm⟩ := hrun.endsAt hend
      refine ⟨m, t, hm, ?_, ?_, hturns⟩
      · rw [hwire', hwire, List.append_assoc, List.singleton_append]
      · rw [hresp', hresp, List.append_assoc, List.singleton_append, List.length_cons, List.replicate_succ]

/-- SENDSTR is the SENDs of its text up to the first NUL and of the terminator (R57). -/
theorem sendString_eq_sendArray (text : List Byte) :
    sendString text = sendArray (text.takeWhile (· != 0) ++ [0x00]) := by
  rw [sendString, sendArray, sendArray, List.map_append]
  rfl

/-- Settles O26: a round for each SEND of the expansion, and the end after the last. -/
theorem sendArrayAndStringTransmitExactly : Obligations.SendArrayAndStringTransmitExactly := by
  intro before rounds rest s hinv hen hb hheld hbefore hrounds hs
  have ready {bs} (hqueue : s.hostQueue = itemsOf (sendArray bs)) : ReadyToSend bs s :=
    ⟨hinv, hen, hb, .inl ⟨hheld, hqueue⟩⟩
  refine ⟨fun bs hlen hqueue => (ready hqueue).endsAt_of_rounds hbefore hrounds hlen hs,
    fun text hlen hqueue => ?_⟩
  rw [sendString_eq_sendArray] at hqueue
  obtain ⟨n, t, hend, hwire, -, hturns⟩ :=
    (ready hqueue).endsAt_of_rounds hbefore hrounds (by simpa using hlen) hs
  exact ⟨n, t, hend, by rw [hwire, List.append_assoc], hturns⟩

/-! ### What any step takes from the host's stream for the line (R67) -/

/-- The bytes that an instruction takes for the line. -/
def sentBy : Instr → List Byte
  | .send b => [b]
  | _ => []

/-- The bytes that a word on the port takes for the line. -/
def sentByWord (w : Word) : List Byte :=
  match decodePort w with
  | .ok i => sentBy i
  | .error _ => []

theorem sentBy_of_ne_send {i : Instr} (h : ∀ b, i ≠ .send b) : sentBy i = [] := by
  cases i with
  | send b => exact absurd rfl (h b)
  | _ => rfl

theorem sentByWord_of_ok {w : Word} {i : Instr} (h : decodePort w = .ok i) : sentByWord w = sentBy i := by
  rw [sentByWord, h]

theorem sentByWord_of_error {w : Word} {e : DecodeError} (h : decodePort w = .error e) : sentByWord w = [] := by
  rw [sentByWord, h]

/-- A word of a program that presents no SEND takes nothing for the line. -/
theorem SendsNothing.sentByWord_eq_nil {program : List HostItem} {w : Word} (h : SendsNothing program)
    (hw : HostItem.word w ∈ program) : sentByWord w = [] := by
  cases hd : decodePort w with
  | error e => exact sentByWord_of_error hd
  | ok i =>
    rw [sentByWord_of_ok hd]
    refine sentBy_of_ne_send fun b hb => h w b hw ?_
    rw [hd, hb]

theorem heldByte_of_none {s : State} (h : s.held = none) : heldByte s = [] := by
  rw [heldByte, h]

theorem heldByte_of_some {s : State} {i : Instr} (h : s.held = some i) : heldByte s = sentBy i := by
  rw [heldByte, h]
  cases i <;> rfl

/-- Only the record, the byte in flight and the held command count. -/
theorem takenBytes_congr {s t : State} (hwire : t.txWire = s.txWire) (hbusy : t.txBusy = s.txBusy)
    (hshift : t.txShift = s.txShift) (hheld : t.held = s.held) : takenBytes t = takenBytes s := by
  unfold takenBytes inFlight heldByte
  rw [hwire, hbusy, hshift, hheld]

/-- The host's command, held or not, runs on a transmitter that is on, and what is held is a command. -/
structure TakesCommands (s : State) : Prop where
  on : s.txEn = true
  held : ∀ i, s.held = some i → i.isEvent = false

/-- What a command takes for the line, whether it is accepted or held (R12, R63). -/
theorem takesCommands_of_exec {i : Instr} {s t : State} (hen : s.txEn = true) (hh : s.held = none)
    (hi : i.isEvent = false) (e : exec i s = .next t) :
    TakesCommands t ∧ takenBytes t = takenBytes s ++ sentBy i := by
  have hne : i ≠ .txDone := by rintro rfl; cases hi
  obtain ⟨hen', htaken⟩ := takenBytes_of_exec hen hh hne e
  refine ⟨⟨hen', fun j hj => ?held⟩, ?taken⟩
  case held =>
    rcases held_or_answersOnce_of_exec hi e with ⟨rfl, -⟩ | ⟨hheld, -⟩
    · cases hj; exact hi
    · rw [hheld, hh] at hj; cases hj
  case taken =>
    rcases htaken with ⟨b, rfl, htaken⟩ | ⟨hnot, htaken⟩
    · exact htaken
    · rw [htaken, sentBy_of_ne_send hnot, List.append_nil]

theorem takesCommands_of_presentWord {w : Word} {s t : State} (hen : s.txEn = true) (hh : s.held = none)
    (e : presentWord w s = .next t) : TakesCommands t ∧ takenBytes t = takenBytes s ++ sentByWord w := by
  cases hd : decodePort w with
  | ok i =>
    rw [presentWord_of_ok hd] at e
    rw [sentByWord_of_ok hd]
    exact takesCommands_of_exec hen hh (decodePort_eq_ok hd).2 e
  | error er =>
    rw [presentWord_of_error hd] at e
    cases e
    rw [sentByWord_of_error hd, List.append_nil]
    exact ⟨⟨hen, fun i hi => by rw [raise_held, hh] at hi; cases hi⟩, takenBytes_congr rfl rfl rfl rfl⟩

/-- The line's completion moves the byte in flight to the record, and so takes nothing. -/
theorem takenBytes_of_departure {s t : State} (hb : s.txBusy = true) (hbusy : t.txBusy = false)
    (hwire : t.txWire = s.txWire ++ [s.txShift]) (hheld : t.held = s.held) : takenBytes t = takenBytes s := by
  unfold takenBytes inFlight heldByte
  simp [hwire, hbusy, hb, hheld]

/-- The byte of a held SEND comes last of the bytes taken. -/
theorem takenBytes_eq_append_heldByte {s u : State} (hwire : u.txWire = s.txWire) (hbusy : u.txBusy = s.txBusy)
    (hshift : u.txShift = s.txShift) (hheld : u.held = none) : takenBytes s = takenBytes u ++ heldByte s := by
  unfold takenBytes
  rw [heldByte_of_none hheld, List.append_nil, hwire, inFlight, inFlight, hbusy, hshift]

/-- A step takes a byte for the line where the host presents a SEND, and nowhere else. -/
theorem TakesCommands.after_step {s t : State} (h : TakesCommands s) (e : step s = .next t) :
    TakesCommands t ∧ ((t.hostQueue = s.hostQueue ∧ takenBytes t = takenBytes s) ∨
      ∃ w, hostPresents s = some (w, t.hostQueue) ∧ takenBytes t = takenBytes s ++ sentByWord w) := by
  have hen : (takeTurn s).txEn = true := (takeTurn_txEn s).trans h.on
  rcases turn_cases e with ⟨hsame, -, -⟩ | ⟨-, hb, -, rfl⟩ | ⟨-, i, hi, e'⟩ | ⟨-, hh, w, rest, hp, e'⟩
  · obtain ⟨-, -, -, htxEn, -, hbusy, hshift, hwire, -, hheld, hqueue⟩ := hsame
    exact ⟨⟨htxEn.trans h.on, fun i hi => h.held i (hheld ▸ hi)⟩,
      .inl ⟨hqueue, takenBytes_congr hwire hbusy hshift hheld⟩⟩
  · exact ⟨⟨hen, fun i hi => h.held i ((takeTurn_held s).symm.trans hi)⟩,
      .inl ⟨takeTurn_hostQueue s, takenBytes_of_departure hb rfl rfl (takeTurn_held s)⟩⟩
  · obtain ⟨ht, htaken⟩ :=
      takesCommands_of_exec (s := { takeTurn s with held := none }) hen rfl (h.held i hi) e'
    refine ⟨ht, .inl ⟨(hostQueue_of_exec e').trans (takeTurn_hostQueue s), ?_⟩⟩
    rw [htaken, ← heldByte_of_some hi, ← takenBytes_eq_append_heldByte (by simp) (by simp) (by simp) rfl]
  · obtain ⟨ht, htaken⟩ := takesCommands_of_presentWord (s := { takeTurn s with hostQueue := rest }) hen
      ((takeTurn_held s).trans hh) e'
    obtain rfl := hostQueue_of_presentWord e'
    refine ⟨ht, .inr ⟨w, hp, ?_⟩⟩
    rw [htaken, takenBytes_congr (s := s) (by simp) (by simp) (by simp) (by simp)]

/-- The host presents the word at the head of its stream, or a word of a RECV loop, which takes nothing for the
line; and its stream grows by no word. -/
theorem hostPresents_cases {s : State} {w : Word} {rest : List HostItem} (h : hostPresents s = some (w, rest)) :
    s.hostQueue = .word w :: rest ∨
      (sentByWord w = [] ∧ rest.length ≤ s.hostQueue.length ∧
        ∀ v, HostItem.word v ∈ rest → HostItem.word v ∈ s.hostQueue) := by
  cases hq : s.hostQueue with
  | nil => rw [hostPresents_of_nil hq] at h; cases h
  | cons x tail =>
    cases x with
    | word v => rw [hostPresents_of_word hq] at h; cases h; exact .inl rfl
    | recv =>
      rw [hostPresents_of_recv hq] at h; cases h
      exact .inr ⟨rfl, le_rfl, by simp⟩
    | poll =>
      by_cases h0 : lastData s = 0
      · rw [hostPresents_of_poll_zero hq h0] at h; cases h
        exact .inr ⟨rfl, le_rfl, by simp⟩
      · rw [hostPresents_of_poll_ne_zero hq h0] at h; cases h
        exact .inr ⟨rfl, Nat.le_succ _, fun v hv => List.mem_cons_of_mem _ hv⟩

/-! ### The SENDs of an expansion, at every step (R67) -/

/-- All SENDs of the expansion have been presented, and `total` is what is then taken for the line, with the
bytes of later SENDs after it. -/
structure Presented (total : List Byte) (following : List HostItem) (t : State) : Prop where
  /-- The host is at `following` or further. -/
  within : t.hostQueue.length ≤ following.length
  taken : total <+: takenBytes t
  /-- Only a word of `following` that has been presented can have taken a byte. -/
  atFollowing : t.hostQueue.length = following.length → takenBytes t = total
  quiet : SendsNothing following → SendsNothing t.hostQueue ∧ takenBytes t = total

/-- The SENDs of the bytes `rest` of the expansion are still to be presented; with those taken they make up
`total`. -/
def ToPresent (total : List Byte) (following : List HostItem) (t : State) : Prop :=
  ∃ rest, t.hostQueue = itemsOf (sendArray rest) ++ following ∧ takenBytes t ++ rest = total

theorem presented_of_hostQueue_eq {total : List Byte} {following : List HostItem} {t : State}
    (hqueue : t.hostQueue = following) (htaken : takenBytes t = total) : Presented total following t where
  within := by rw [hqueue]
  taken := by rw [htaken]
  atFollowing := fun _ => htaken
  quiet := fun h => ⟨by rwa [hqueue], htaken⟩

theorem Presented.congr {total : List Byte} {following : List HostItem} {s t : State}
    (h : Presented total following s) (hqueue : t.hostQueue = s.hostQueue)
    (htaken : takenBytes t = takenBytes s) : Presented total following t where
  within := hqueue ▸ h.within
  taken := htaken ▸ h.taken
  atFollowing := by rw [hqueue, htaken]; exact h.atFollowing
  quiet := by rw [hqueue, htaken]; exact h.quiet

theorem Presented.after_step {total : List Byte} {following : List HostItem} {s t : State}
    (h : Presented total following s) (hs : TakesCommands s) (e : step s = .next t) :
    Presented total following t := by
  rcases hs.after_step e with ⟨-, ⟨hqueue, htaken⟩ | ⟨w, hp, htaken⟩⟩
  · exact h.congr hqueue htaken
  · have hprefix : total <+: takenBytes t := htaken ▸ h.taken.trans (List.prefix_append _ _)
    have hwithin := h.within
    rcases hostPresents_cases hp with hword | ⟨hnone, hlen, hmem⟩
    · have hlen : t.hostQueue.length + 1 = s.hostQueue.length := by rw [hword, List.length_cons]
      refine ⟨by omega, hprefix, fun hat => absurd hat (by omega), fun hf => ?_⟩
      obtain ⟨hquiet, hsame⟩ := h.quiet hf
      rw [hword] at hquiet
      refine ⟨fun v b hv => hquiet v b (List.mem_cons_of_mem _ hv), ?_⟩
      rw [htaken, hquiet.sentByWord_eq_nil List.mem_cons_self, List.append_nil, hsame]
    · rw [hnone, List.append_nil] at htaken
      refine ⟨hlen.trans hwithin, hprefix, fun hat => ?_, fun hf => ?_⟩
      · rw [htaken]
        exact h.atFollowing (by omega)
      · obtain ⟨hquiet, hsame⟩ := h.quiet hf
        exact ⟨fun v b hv => hquiet v b (hmem v hv), htaken.trans hsame⟩

theorem ToPresent.after_step {total : List Byte} {following : List HostItem} {s t : State}
    (h : ToPresent total following s) (hs : TakesCommands s) (e : step s = .next t) :
    ToPresent total following t ∨ Presented total following t := by
  obtain ⟨rest, hrest, htotal⟩ := h
  cases rest with
  | nil => exact .inr ((presented_of_hostQueue_eq hrest (by simpa using htotal)).after_step hs e)
  | cons b rest =>
    refine .inl ?_
    rcases hs.after_step e with ⟨-, ⟨hqueue, htaken⟩ | ⟨w, hp, htaken⟩⟩
    · exact ⟨b :: rest, hqueue.trans hrest, by rw [htaken, htotal]⟩
    · rw [hostPresents_of_word hrest] at hp
      obtain ⟨rfl, hqueue⟩ := Prod.mk.inj (Option.some.inj hp)
      refine ⟨rest, hqueue.symm, ?_⟩
      rw [htaken, sentByWord_of_ok (decodePort_encode_send b), List.append_assoc, ← htotal]
      rfl

/-- In every state of a run, the expansion is still to be presented or has been. -/
theorem toPresent_or_presented_of_runSteps {total : List Byte} {following : List HostItem} {n : Nat}
    {s t : State} (h : ToPresent total following s ∨ Presented total following s) (hs : TakesCommands s)
    (e : runSteps n s = .next t) : ToPresent total following t ∨ Presented total following t := by
  induction n generalizing s with
  | zero => cases e; exact h
  | succ n ih =>
    obtain ⟨u, hu, e⟩ := exists_step_of_runSteps e
    refine ih ?_ (hs.after_step hu).1 e
    rcases h with h | h
    · exact h.after_step hs hu
    · exact .inr (h.after_step hs hu)

theorem txWire_prefix_takenBytes (s : State) : s.txWire <+: takenBytes s :=
  (List.prefix_append _ _).trans (List.prefix_append _ _)

/-- With nothing in flight and no SEND held, all that was taken has departed. -/
theorem takenBytes_of_idle {s : State} (hb : s.txBusy = false) (hh : heldByte s = []) :
    takenBytes s = s.txWire := by
  simp [takenBytes, inFlight, hb, hh]

theorem Presented.appendsExactly {bs : List Byte} {following : List HostItem} {s t : State}
    (h : Presented (s.txWire ++ bs) following t) : AppendsExactly bs following s t where
  inOrder := List.prefix_or_prefix_of_prefix (txWire_prefix_takenBytes t) h.taken
  toCome := fun hlt => absurd h.within (Nat.not_le.mpr hlt)
  presented := fun _ => h.taken
  departed := fun _ hb hh => takenBytes_of_idle hb hh ▸ h.taken
  nothingElse := fun hf _ => (h.quiet hf).2
  exactly := fun hf _ hb hh => takenBytes_of_idle hb hh ▸ (h.quiet hf).2
  before := fun hqueue hheld hb =>
    takenBytes_of_idle hb (heldByte_of_none hheld) ▸ h.atFollowing (by rw [hqueue])

theorem ToPresent.appendsExactly {bs : List Byte} {following : List HostItem} {s t : State}
    (h : ToPresent (s.txWire ++ bs) following t) : AppendsExactly bs following s t := by
  obtain ⟨rest, hqueue, htotal⟩ := h
  cases rest with
  | nil => exact (presented_of_hostQueue_eq hqueue (by simpa using htotal)).appendsExactly
  | cons b rest =>
    have hlen : following.length < t.hostQueue.length := by
      rw [hqueue, itemsOf_sendArray_cons, List.length_append, List.length_cons]
      omega
    have hnot (hle : t.hostQueue.length ≤ following.length) : False := Nat.not_le.mpr hlen hle
    exact {
      inOrder := .inl (htotal ▸ (txWire_prefix_takenBytes t).trans (List.prefix_append _ _))
      toCome := fun _ => ⟨b :: rest, hqueue, htotal⟩
      presented := fun hle => (hnot hle).elim
      departed := fun hle => (hnot hle).elim
      nothingElse := fun _ hle => (hnot hle).elim
      exactly := fun _ hle => (hnot hle).elim
      before := fun heq => (hnot (by rw [heq])).elim }

/-- The SENDs of any bytes, from an idle transmitter that is on. -/
theorem appendsExactly_of_runSteps {bs : List Byte} {following : List HostItem} {n : Nat} {s t : State}
    (hen : s.txEn = true) (hb : s.txBusy = false) (hheld : s.held = none)
    (hqueue : s.hostQueue = itemsOf (sendArray bs) ++ following) (e : runSteps n s = .next t) :
    AppendsExactly bs following s t := by
  have hs : TakesCommands s := ⟨hen, fun i hi => by rw [hheld] at hi; cases hi⟩
  have hstart : ToPresent (s.txWire ++ bs) following s :=
    ⟨bs, hqueue, by rw [takenBytes_of_idle hb (heldByte_of_none hheld)]⟩
  rcases toPresent_or_presented_of_runSteps (.inl hstart) hs e with h | h
  · exact h.appendsExactly
  · exact h.appendsExactly

/-- Settles O27: the three expansions are the SENDs of their bytes. -/
theorem expansionsDepartInEveryRun : Obligations.ExpansionsDepartInEveryRun := by
  intro following n s t hen hb hheld e
  refine ⟨fun bs hqueue => appendsExactly_of_runSteps hen hb hheld hqueue e, fun hqueue => ?_,
    fun text hqueue => ?_⟩
  · exact appendsExactly_of_runSteps (bs := [0x00]) hen hb hheld hqueue e
  · rw [sendString_eq_sendArray] at hqueue
    exact appendsExactly_of_runSteps hen hb hheld hqueue e

end Sys2Proof.Machine

/-! SUPPORT. The bytes that arrive and the READs that take them, one at a time and along a run, and the obligations
about the receiver (42_receive.md). -/

namespace Sys2Proof.Machine

/-! ### RX_EVENT, PEND and READ, one at a time (R68 to R71) -/

/-- The state after `b` is stored at the write cursor, the count up by one. -/
def stored (b : Byte) (s : State) : State :=
  { s with buf := s.buf.write s.wc b, cnt := s.cnt + 1, wc := nextIndex s s.wc }

/-- The state after the byte at the read cursor is given up, the count down by one. -/
def consumed (s : State) : State := { s with rc := nextIndex s s.rc, cnt := s.cnt - 1 }

/-- The state after `b` arrives at a full buffer (R69). Overwriting the oldest byte is giving it up and storing the
new one. -/
def overrun (b : Byte) (s : State) : State :=
  match s.cfg.ovfPolicy with
  | .overwriteOldest => { stored b (consumed s) with rxOvf := true }
  | .dropNewest => { s with rxOvf := true }
  | .sourceCompat => { stored b s with rxOvf := true }

section OneByte

variable {s : State}

theorem exec_rxEvent_eq_stored (hc : s.cfg.WellFormed) (hrx : rxEnabled s = true) (hnf : ¬bufferFull s)
    (hw : s.wc < s.cfg.cap) (b : Byte) : exec (.rxEvent b) s = .next (stored b s) :=
  exec_rxEvent_of_not_full hc hrx hnf hw b

theorem overrun_of_overwriteOldest (hp : s.cfg.ovfPolicy = .overwriteOldest) (b : Byte) :
    overrun b s = { s with
      rxOvf := true, buf := s.buf.write s.wc b, wc := nextIndex s s.wc, rc := nextIndex s s.rc } := by
  simp [overrun, hp, stored, consumed, nextIndex]

theorem overrun_of_dropNewest (hp : s.cfg.ovfPolicy = .dropNewest) (b : Byte) :
    overrun b s = { s with rxOvf := true } := by
  simp only [overrun, hp]

theorem overrun_of_sourceCompat (hp : s.cfg.ovfPolicy = .sourceCompat) (b : Byte) :
    overrun b s = { stored b s with rxOvf := true } := by
  simp only [overrun, hp]

/-- Only a policy that stores needs a write cursor that names a slot. -/
theorem exec_rxEvent_eq_overrun (hc : s.cfg.WellFormed) (hrx : rxEnabled s = true) (hf : bufferFull s)
    (hw : s.cfg.ovfPolicy = .dropNewest ∨ s.wc < s.cfg.cap) (b : Byte) :
    exec (.rxEvent b) s = .next (overrun b s) := by
  rw [exec_rxEvent_of_full hc hrx hf]
  cases hp : s.cfg.ovfPolicy with
  | overwriteOldest =>
    rw [rxFull_of_overwriteOldest hp (by simpa [hp] using hw), overrun_of_overwriteOldest hp, complete]
  | dropNewest => rw [rxFull_of_dropNewest hp, overrun_of_dropNewest hp, complete]
  | sourceCompat =>
    rw [rxFull_of_sourceCompat hp (by simpa [hp] using hw), overrun_of_sourceCompat hp, complete, stored]

end OneByte

/-- Settles O30: either enable off turns the receiver off. -/
theorem rxEventLostWhenDisabled : Obligations.RxEventLostWhenDisabled := by
  intro b s hc hoff
  refine exec_rxEvent_of_disabled hc (Bool.eq_false_iff.mpr fun hrx => ?_) b
  obtain ⟨hen, hie⟩ := rxEnabled_iff.mp hrx
  simp [hen, hie] at hoff

/-- Settles O31: the byte is stored, and a write reads back at its slot only. -/
theorem rxEventStores : Obligations.RxEventStores := fun b s hc hen hie hlt hw =>
  ⟨s.buf.write s.wc b,
    exec_rxEvent_of_not_full hc (rxEnabled_iff.mpr ⟨hen, hie⟩) (Nat.not_le.mpr hlt) hw b,
    fun i => Memory.read_write _ _ i b⟩

/-- Settles O32: each policy's `overrun`. -/
theorem rxEventOverflows : Obligations.RxEventOverflows := by
  intro b s hc hen hie hf
  have hover := exec_rxEvent_eq_overrun hc (rxEnabled_iff.mpr ⟨hen, hie⟩) hf (b := b)
  refine ⟨fun hp hw => ?overwrite, fun hp => ?drop, fun hp hw => ?compat⟩
  case overwrite =>
    rw [hover (.inr hw), overrun_of_overwriteOldest hp]
    exact ⟨_, rfl, fun i => Memory.read_write _ _ i b⟩
  case drop => rw [hover (.inl hp), overrun_of_dropNewest hp]
  case compat =>
    rw [hover (.inr hw), overrun_of_sourceCompat hp]
    exact ⟨_, rfl, fun i => Memory.read_write _ _ i b⟩

/-- Settles O33: the count fits in the data of the answer. -/
theorem pendAnswersTheCount : Obligations.PendAnswersTheCount := by
  intro s hc
  rw [exec_pend hc, respond, responseWord_ok_zext24 (by decide)]

/-- Settles O34: EMPTY, or the byte at the read cursor. -/
theorem readConsumesTheByte : Obligations.ReadConsumesTheByte := by
  intro s hc
  refine ⟨fun h0 => ?empty, fun h0 hr => ?byte⟩
  case empty =>
    rw [exec_read_of_zero hc h0, raise, respond,
      show responseWord .empty 0 = 0x40000000 from responseWord_empty_zero]
  case byte =>
    rw [exec_read_of_ne_zero hc h0 hr, respond, responseWord_ok_zext24 (by decide)]
    rfl

/-! ### The unread bytes while the buffer is not overrun (10_state.md R29, R30) -/

/-- What R29 says of the count and the cursors, under any policy. -/
def CursorsFit (s : State) : Prop := s.cnt.toNat ≤ s.cfg.cap ∧ s.wc = (s.rc + s.cnt.toNat) % s.cfg.cap

section Queue

variable {s : State}

theorem CursorsFit.count (h : CursorsFit s) : s.cnt.toNat ≤ s.cfg.cap := h.1

theorem CursorsFit.cursors (h : CursorsFit s) : s.wc = (s.rc + s.cnt.toNat) % s.cfg.cap := h.2

theorem CursorsFit.wc_lt (h : CursorsFit s) (hc : s.cfg.WellFormed) : s.wc < s.cfg.cap := by
  rw [h.cursors]
  exact Nat.mod_lt _ hc.2.1

theorem CursorsFit.after_stored (h : CursorsFit s) (hc : s.cfg.WellFormed) (hnf : ¬bufferFull s) (b : Byte) :
    CursorsFit (stored b s) := by
  obtain ⟨-, hwc⟩ := h
  have hlt := Nat.lt_of_not_le hnf
  have hcnt : (stored b s).cnt.toNat = s.cnt.toNat + 1 := count_succ hlt hc.2.2
  refine ⟨hcnt ▸ hlt, ?_⟩
  rw [hcnt]
  exact (congrArg (nextIndex s) hwc).trans (nextIndex_add_mod s _)

theorem CursorsFit.after_consumed (h : CursorsFit s) (h0 : s.cnt ≠ 0) : CursorsFit (consumed s) := by
  obtain ⟨hle, hwc⟩ := h
  have hcnt : (consumed s).cnt.toNat + 1 = s.cnt.toNat := count_pred h0
  refine ⟨(Nat.le_succ _).trans (hcnt.trans_le hle), hwc.trans ?_⟩
  rw [← hcnt]
  exact (nextIndex_rc_add_mod s _).symm

theorem CursorsFit.unread_stored (h : CursorsFit s) (hc : s.cfg.WellFormed) (hnf : ¬bufferFull s) (b : Byte) :
    unread (stored b s) = unread s ++ [b] :=
  unread_store b hc.2.2 (Nat.lt_of_not_le hnf) h.cursors

theorem unread_of_cnt_zero (h0 : s.cnt = 0) : unread s = [] := by simp [unread, h0]

theorem cnt_eq_zero_of_unread_nil (h : unread s = []) : s.cnt = 0 := by
  apply BitVec.eq_of_toNat_eq
  rw [← unread_length, h]
  rfl

theorem cnt_ne_zero_of_unread_cons {b : Byte} {bs : List Byte} (h : unread s = b :: bs) : s.cnt ≠ 0 := by
  intro h0
  rw [unread_of_cnt_zero h0] at h
  cases h

end Queue

/-! ### Runs without overflow (R72) -/

section OtherInstr

variable {i : Instr} (hread : i ≠ .read) (hrx : ∀ b, i ≠ .rxEvent b)

include hread hrx

/-- Every instruction but READ and RX_EVENT leaves the buffer, the count and the cursors alone. -/
theorem receive_of_exec_other {s t : State} (e : exec i s = .next t) :
    t.cfg = s.cfg ∧ t.buf = s.buf ∧ t.wc = s.wc ∧ t.rc = s.rc ∧ t.cnt = s.cnt := by
  obtain ⟨⟨hcfg, -⟩, -, -, -, -, -, -, -, hbuf, hrc, hcnt, -⟩ := onlyTheNamedWritersWrite i s t e
  have hno : ¬∃ b, i = .rxEvent b := fun ⟨b, hb⟩ => hrx b hb
  refine ⟨hcfg, by_contra fun h => hno (hbuf (.inl h)), by_contra fun h => hno (hbuf (.inr h)),
    by_contra fun h => ?_, by_contra fun h => (hcnt h).elim hread hno⟩
  exact (hrc h).elim hread fun hwrite => hno hwrite.1

/-- Only READ and RX_EVENT add to what was received and read. -/
theorem record_other (h : History) (s : State) :
    (h.record i s).rxBytes = h.rxBytes ∧ (h.record i s).readBytes = h.readBytes ∧
      (h.record i s).overflowed = h.overflowed := by
  cases i with
  | send b => simp only [History.record]; split <;> exact ⟨rfl, rfl, rfl⟩
  | read => exact absurd rfl hread
  | rxEvent b => exact absurd rfl (hrx b)
  | _ => exact ⟨rfl, rfl, rfl⟩

end OtherInstr

/-- R72: until a byte has met a full buffer, the bytes read and then those unread are those received. -/
def InOrder (s : State) (h : History) : Prop :=
  h.overflowed = false → CursorsFit s ∧ h.readBytes ++ unread s = h.rxBytes

theorem InOrder.congr {s t : State} {h k : History} (f : InOrder s h) (hcfg : t.cfg = s.cfg)
    (hbuf : t.buf = s.buf) (hwc : t.wc = s.wc) (hrc : t.rc = s.rc) (hcnt : t.cnt = s.cnt)
    (hrx : k.rxBytes = h.rxBytes) (hread : k.readBytes = h.readBytes)
    (hover : k.overflowed = h.overflowed) : InOrder t k := by
  intro hk
  obtain ⟨⟨hcount, hcursors⟩, horder⟩ := f (hover ▸ hk)
  refine ⟨⟨?_, ?_⟩, ?_⟩
  · rwa [hcnt, hcfg]
  · rwa [hwc, hrc, hcnt, hcfg]
  · rwa [hread, hrx, unread_congr hcnt hbuf hrc hcfg]

/-- A byte that arrives is lost, or appended, or it ends the claim: then it has met a full buffer. -/
theorem InOrder.after_execRxEvent {b : Byte} {s t : State} {h : History} (f : InOrder s h)
    (e : execRxEvent b s = .next t) : InOrder t (h.record (.rxEvent b) s) := by
  obtain ⟨hc, hcases⟩ := execRxEvent_cases e
  by_cases hrx : rxEnabled s = true
  case neg =>
    obtain rfl : t = s := by simpa [hrx] using hcases
    rwa [record_rxEvent_of_disabled h (by simpa using hrx)]
  case pos =>
    rw [record_rxEvent_of_enabled h hrx]
    intro hover
    simp only [Bool.or_eq_false_iff, decide_eq_false_iff_not] at hover
    obtain ⟨hover, hnf⟩ := hover
    obtain ⟨hfit, horder⟩ := f hover
    have hstored : execRxEvent b s = .next (stored b s) :=
      exec_rxEvent_eq_stored hc hrx hnf (hfit.wc_lt hc) b
    obtain rfl : stored b s = t := by simpa [hstored] using e
    refine ⟨hfit.after_stored hc hnf b, ?_⟩
    rw [hfit.unread_stored hc hnf, ← List.append_assoc, horder]

/-- READ moves the oldest unread byte to the bytes read. -/
theorem InOrder.after_execRead {s t : State} {h : History} (f : InOrder s h) (e : execRead s = .next t) :
    InOrder t (h.record .read s) := by
  obtain ⟨-, ⟨h0, rfl⟩ | ⟨h0, hr, rfl⟩⟩ := execRead_cases e
  · rw [record_read_of_zero h h0]
    exact f
  · rw [record_read_of_ne_zero h h0]
    intro hover
    obtain ⟨hfit, horder⟩ := f hover
    rw [unread_consume h0 hr] at horder
    exact ⟨hfit.after_consumed h0, (List.append_assoc _ _ _).trans horder⟩

theorem InOrder.after_exec {i : Instr} {s t : State} {h : History} (f : InOrder s h)
    (e : exec i s = .next t) : InOrder t (h.record i s) := by
  by_cases hread : i = .read
  case pos => subst hread; exact f.after_execRead e
  by_cases hrx : ∃ b, i = .rxEvent b
  case pos => obtain ⟨b, rfl⟩ := hrx; exact f.after_execRxEvent e
  replace hrx : ∀ b, i ≠ .rxEvent b := not_exists.mp hrx
  obtain ⟨hcfg, hbuf, hwc, hrc, hcnt⟩ := receive_of_exec_other hread hrx e
  obtain ⟨hrxBytes, hreadBytes, hover⟩ := record_other hread hrx h s
  exact f.congr hcfg hbuf hwc hrc hcnt hrxBytes hreadBytes hover

theorem Run.inOrder {s : State} {h : History} (r : Run s h) : InOrder s h := by
  refine r.induction_on_exec (fun c program turns shift n _ => ?_) (fun e f => ?_) fun f e => f.after_exec e
  · exact ⟨⟨Nat.zero_le _, (Nat.zero_mod _).symm⟩, rfl⟩
  · obtain ⟨_, _, _, _, _, rfl⟩ := e
    exact f

/-- Settles O37: the second claim is the first one's lengths. -/
theorem fifoWithoutOverflow : Obligations.FifoWithoutOverflow := by
  intro s h r hover
  obtain ⟨-, horder⟩ := r.inOrder hover
  refine ⟨horder, ?_⟩
  rw [← horder, List.length_append, unread_length, Nat.add_comm]

/-! ### Bytes into a buffer with room for them (R72) -/

/-- From `s` to `t`, `bytes` have been appended to the unread bytes, and `rest` are the turns left. -/
structure Received (bytes : List Byte) (rest : List Turn) (s t : State) : Prop where
  /-- Nothing but the buffer, the count, the write cursor and the turns has changed. -/
  frame : ∃ buf cnt wc, t = { s with buf := buf, cnt := cnt, wc := wc, script := rest }
  fit : CursorsFit t
  queue : unread t = unread s ++ bytes

/-- A byte for which there is room, and then more bytes. -/
theorem received_of_stored {b : Byte} {bytes : List Byte} {rest turns : List Turn} {s t : State}
    (hc : s.cfg.WellFormed) (hfit : CursorsFit s) (hnf : ¬bufferFull s)
    (h : Received bytes rest (stored b { s with script := turns }) t) : Received (b :: bytes) rest s t := by
  obtain ⟨⟨buf, cnt, wc, rfl⟩, hfit', hunread⟩ := h
  refine ⟨⟨buf, cnt, wc, rfl⟩, hfit', hunread.trans ?_⟩
  have hstored : unread (stored b { s with script := turns }) = unread s ++ [b] :=
    hfit.unread_stored hc hnf b
  rw [hstored, List.append_assoc]
  rfl

/-- As many bytes as there is room for are stored in order, by as many steps. -/
theorem runSteps_received (bytes : List Byte) {rest : List Turn} {s : State} (hc : s.cfg.WellFormed)
    (hrx : rxEnabled s = true) (hfit : CursorsFit s) (hroom : s.cnt.toNat + bytes.length ≤ s.cfg.cap)
    (hs : s.script = bytes.map Turn.rx ++ rest) :
    ∃ t, runSteps bytes.length s = .next t ∧ Received bytes rest s t := by
  induction bytes generalizing s with
  | nil =>
    subst hs
    exact ⟨s, rfl, ⟨_, _, _, rfl⟩, hfit, (List.append_nil _).symm⟩
  | cons b bytes ih =>
    rw [List.length_cons] at hroom
    have hlt : s.cnt.toNat < s.cfg.cap := by omega
    have hnf : ¬bufferFull s := Nat.not_le.mpr hlt
    have hstep : step s = .next (stored b { s with script := bytes.map Turn.rx ++ rest }) :=
      (step_of_script hc hs).trans (exec_rxEvent_eq_stored (s := { s with script := _ ++ _ }) hc hrx hnf
        (hfit.wc_lt hc) b)
    have hcnt : (s.cnt + 1).toNat + bytes.length ≤ s.cfg.cap := by
      rw [count_succ hlt hc.2.2]
      omega
    obtain ⟨t, hrun, ht⟩ := ih (s := stored b { s with script := bytes.map Turn.rx ++ rest }) hc hrx
      (hfit.after_stored hc hnf b) hcnt rfl
    exact ⟨t, (runSteps_succ hstep _).trans hrun, received_of_stored hc hfit hnf ht⟩

/-! ### A host that reports and reads (R70, R71) -/

/-- The host holds nothing and has `items` to present; `turns` are the turns to come. -/
structure Presenting (items : List HostItem) (turns : List Turn) (s : State) : Prop where
  config : s.cfg.WellFormed
  free : s.held = none
  items : s.hostQueue = items
  turns : s.script = turns

/-- The state after the host has presented a word that was answered `r`. -/
def answered (items : List HostItem) (turns : List Turn) (r : Word) (s : State) : State :=
  { s with hostQueue := items, script := turns, responses := s.responses ++ [r] }

@[simp] theorem answered_responses (items : List HostItem) (turns : List Turn) (r : Word) (s : State) :
    (answered items turns r s).responses = s.responses ++ [r] := rfl

section Received

variable {bytes : List Byte} {rest : List Turn} {s t : State} (h : Received bytes rest s t)

include h

theorem Received.cfg : t.cfg = s.cfg := by
  obtain ⟨_, _, _, rfl⟩ := h.frame
  rfl

theorem Received.rc : t.rc = s.rc := by
  obtain ⟨_, _, _, rfl⟩ := h.frame
  rfl

theorem Received.script : t.script = rest := by
  obtain ⟨_, _, _, rfl⟩ := h.frame
  rfl

theorem Received.responses : t.responses = s.responses := by
  obtain ⟨_, _, _, rfl⟩ := h.frame
  rfl

theorem Received.rxEnabled : rxEnabled t = rxEnabled s := by
  obtain ⟨_, _, _, rfl⟩ := h.frame
  rfl

theorem Received.wellFormed (hc : s.cfg.WellFormed) : t.cfg.WellFormed := by rwa [h.cfg]

theorem Received.rc_lt (hr : s.rc < s.cfg.cap) : t.rc < t.cfg.cap := by rwa [h.rc, h.cfg]

/-- Bytes that arrive leave the host alone. -/
theorem Received.presenting {items : List HostItem} (hc : s.cfg.WellFormed) (hheld : s.held = none)
    (hqueue : s.hostQueue = items) : Presenting items rest t := by
  obtain ⟨_, _, _, rfl⟩ := h.frame
  exact ⟨hc, hheld, hqueue, rfl⟩

end Received

section Host

variable {items : List HostItem} {turns : List Turn} {s : State}

theorem Presenting.step_presents {i : Instr} (h : Presenting (.word (encode i) :: items) (.host :: turns) s)
    (hd : decodePort (encode i) = .ok i) :
    step s = exec i { s with hostQueue := items, script := turns } := by
  rw [step_of_hostPresents h.config (nextTurn_of_script s h.turns) h.free (hostPresents_of_word h.items),
    presentWord_of_ok hd, takeTurn_of_script s h.turns]

theorem Presenting.step_pend (h : Presenting (.word (encode .pend) :: items) (.host :: turns) s) :
    step s = .next (answered items turns (s.cnt.setWidth 32) s) :=
  (h.step_presents decodePort_encode_pend).trans
    (pendAnswersTheCount { s with hostQueue := items, script := turns } h.config)

theorem Presenting.step_read_empty (h : Presenting (.word (encode .read) :: items) (.host :: turns) s)
    (h0 : s.cnt = 0) : step s = .next (answered items turns 0x40000000 s) :=
  (h.step_presents decodePort_encode_read).trans
    ((readConsumesTheByte { s with hostQueue := items, script := turns } h.config).1 h0)

theorem Presenting.step_read (h : Presenting (.word (encode .read) :: items) (.host :: turns) s)
    (h0 : s.cnt ≠ 0) (hr : s.rc < s.cfg.cap) :
    step s = .next (answered items turns ((s.buf.slot s.rc).setWidth 32) (consumed s)) :=
  (h.step_presents decodePort_encode_read).trans
    ((readConsumesTheByte { s with hostQueue := items, script := turns } h.config).2 h0 hr)

/-- As many READs as bytes are unread answer them in order. -/
theorem Presenting.runSteps_reads {bs : List Byte} (hbs : unread s = bs) (hr : s.rc < s.cfg.cap)
    (h : Presenting (List.replicate bs.length (.word (encode .read)) ++ items)
      (List.replicate bs.length .host ++ turns) s) :
    ∃ t, runSteps bs.length s = .next t ∧ Presenting items turns t ∧ t.cnt = 0 ∧
      t.responses = s.responses ++ bs.map (·.setWidth 32) := by
  induction bs generalizing s with
  | nil => exact ⟨s, rfl, h, cnt_eq_zero_of_unread_nil hbs, (List.append_nil _).symm⟩
  | cons b bs ih =>
    have h0 := cnt_ne_zero_of_unread_cons hbs
    have hstep := Presenting.step_read h h0 hr
    rw [unread_consume h0 hr] at hbs
    obtain ⟨hb, hbs⟩ := List.cons.inj hbs
    obtain ⟨t, hrun, ht, hcnt, hresp⟩ :=
      ih (s := answered _ _ _ (consumed s)) hbs (nextIndex_lt h.config _) ⟨h.config, h.free, rfl, rfl⟩
    refine ⟨t, (runSteps_succ hstep _).trans hrun, ht, hcnt, hresp.trans ?_⟩
    rw [answered, hb]
    exact List.append_assoc _ _ _

/-- PEND answers how many bytes are unread, and then the READs answer them. -/
theorem Presenting.runSteps_report {n : Nat} (hn : (unread s).length = n) (hr : s.rc < s.cfg.cap)
    (h : Presenting (.word (encode .pend) :: (List.replicate n (.word (encode .read)) ++ items))
      (.host :: (List.replicate n .host ++ turns)) s) :
    ∃ t, runSteps (n + 1) s = .next t ∧ Presenting items turns t ∧ t.cnt = 0 ∧
      t.responses = s.responses ++ s.cnt.setWidth 32 :: (unread s).map (·.setWidth 32) := by
  subst hn
  obtain ⟨t, hrun, ht, hcnt, hresp⟩ :=
    Presenting.runSteps_reads (s := answered _ _ (s.cnt.setWidth 32) s) (bs := unread s) rfl hr
      ⟨h.config, h.free, rfl, rfl⟩
  exact ⟨t, (runSteps_succ h.step_pend _).trans hrun, ht, hcnt, hresp.trans (List.append_assoc _ _ _)⟩

end Host

/-- The last of some turns of the host, after the others. -/
theorem replicate_add_two_append {α : Type} (n : Nat) (a : α) (rest : List α) :
    List.replicate (n + 2) a ++ rest = a :: (List.replicate n a ++ a :: rest) := by
  rw [List.replicate_succ, List.replicate_succ', List.cons_append, List.append_assoc]
  rfl

/-- PEND's answer is the number of unread bytes. -/
theorem setWidth_cnt (s : State) : s.cnt.setWidth 32 = BitVec.ofNat 32 (unread s).length := by
  rw [unread_length, BitVec.ofNat_toNat]

/-- Settles O38: the bytes are stored, PEND and the READs answer them, and the last PEND answers 0. -/
theorem receiveThenDrain : Obligations.ReceiveThenDrain := by
  intro xs rest s hc hen hie h0 hw hcursors hlen hheld hqueue hscript
  have hfit : CursorsFit s := ⟨by simp [h0], by simp [h0, hcursors, Nat.mod_eq_of_lt hw]⟩
  rw [List.append_assoc, replicate_add_two_append] at hscript
  obtain ⟨t, hrun, ht⟩ :=
    runSteps_received xs hc (rxEnabled_iff.mpr ⟨hen, hie⟩) hfit (by simpa [h0] using hlen) hscript
  have hunread : unread t = xs := by rw [ht.queue, unread_of_cnt_zero h0, List.nil_append]
  obtain ⟨u, hreport, hu, hu0, hresp⟩ :=
    Presenting.runSteps_report (congrArg List.length hunread) (ht.rc_lt (hcursors ▸ hw))
      (ht.presenting hc hheld hqueue)
  refine ⟨answered [] rest (u.cnt.setWidth 32) u, ?_, hu0, ?_⟩
  · rw [show 2 * xs.length + 2 = xs.length + (xs.length + 1 + 1) by omega, runSteps_add _ _ hrun,
      runSteps_add _ _ hreport, runSteps_one hu.step_pend]
  · rw [answered_responses, hresp, setWidth_cnt t, hunread, ht.responses, hu0]
    rfl

/-! ### One byte more than the capacity (R73) -/

section Overrun

variable {s : State}

/-- Giving up a byte and storing another may come in either order. -/
theorem consumed_stored (b : Byte) (s : State) : consumed (stored b s) = stored b (consumed s) := by
  simp [consumed, stored, nextIndex]

theorem cnt_ne_zero_of_full (hc : s.cfg.WellFormed) (hf : bufferFull s) : s.cnt ≠ 0 := by
  intro h0
  have hpos := hc.2.1
  simp [bufferFull, h0] at hf
  omega

/-- In a full buffer the cursors have met. -/
theorem CursorsFit.wc_eq_rc_of_full (h : CursorsFit s) (hr : s.rc < s.cfg.cap) (hf : bufferFull s) :
    s.wc = s.rc := by
  obtain ⟨hle, hwc⟩ := h
  rw [hwc, Nat.le_antisymm hle hf, Nat.add_mod_right, Nat.mod_eq_of_lt hr]

/-- Giving up the oldest byte makes room for the newest. -/
theorem CursorsFit.unread_stored_consumed (h : CursorsFit s) (hc : s.cfg.WellFormed) (hr : s.rc < s.cfg.cap)
    (hf : bufferFull s) (b : Byte) : unread (stored b (consumed s)) = (unread s).tail ++ [b] := by
  have h0 := cnt_ne_zero_of_full hc hf
  have hcnt : (consumed s).cnt.toNat + 1 = s.cnt.toNat := count_pred h0
  have hnf : ¬bufferFull (consumed s) := Nat.not_le.mpr (by
    have := h.count
    change _ < s.cfg.cap
    omega)
  rw [(h.after_consumed h0).unread_stored hc hnf, unread_consume h0 hr, List.tail_cons]
  rfl

/-- Counting a byte stored over the oldest unread one as one more, that byte is read first and last. -/
theorem CursorsFit.unread_stored_of_full (h : CursorsFit s) (hc : s.cfg.WellFormed) (hr : s.rc < s.cfg.cap)
    (hf : bufferFull s) (hcap : s.cfg.cap < 65535) (b : Byte) :
    unread (stored b s) = b :: ((unread s).tail ++ [b]) := by
  have hcnt : (stored b s).cnt.toNat = s.cnt.toNat + 1 :=
    count_succ (Nat.lt_succ_of_le h.count) hcap
  have h0 : (stored b s).cnt ≠ 0 := by
    intro hz
    simp [hz] at hcnt
  have hhead : (stored b s).buf.slot (stored b s).rc = b := by
    simp [stored, Memory.slot_write, h.wc_eq_rc_of_full hr hf]
  rw [unread_consume h0 hr, hhead, ← h.unread_stored_consumed hc hr hf, ← consumed_stored]
  rfl

/-- What an overrun leaves of the registers (R69). -/
theorem overrun_cnt (b : Byte) (s : State) :
    (overrun b s).cnt = if s.cfg.ovfPolicy = .sourceCompat then s.cnt + 1 else s.cnt := by
  cases hp : s.cfg.ovfPolicy <;> simp [overrun, hp, stored, consumed]

theorem overrun_wc (b : Byte) (s : State) :
    (overrun b s).wc = if s.cfg.ovfPolicy = .dropNewest then s.wc else nextIndex s s.wc := by
  cases hp : s.cfg.ovfPolicy <;> simp [overrun, hp, stored, consumed, nextIndex]

theorem overrun_rc (b : Byte) (s : State) :
    (overrun b s).rc = if s.cfg.ovfPolicy = .overwriteOldest then nextIndex s s.rc else s.rc := by
  cases hp : s.cfg.ovfPolicy <;> simp [overrun, hp, stored, consumed]

theorem overrun_rxOvf (b : Byte) (s : State) : (overrun b s).rxOvf = true := by
  cases hp : s.cfg.ovfPolicy <;> simp [overrun, hp]

theorem overrun_cfg (b : Byte) (s : State) : (overrun b s).cfg = s.cfg := by
  cases hp : s.cfg.ovfPolicy <;> simp [overrun, hp, stored, consumed]

theorem overrun_responses (b : Byte) (s : State) : (overrun b s).responses = s.responses := by
  cases hp : s.cfg.ovfPolicy <;> simp [overrun, hp, stored, consumed]

theorem Presenting.after_overrun {items : List HostItem} {turns : List Turn} (h : Presenting items turns s)
    (b : Byte) : Presenting items turns (overrun b s) := by
  obtain ⟨hc, hheld, hqueue, hscript⟩ := h
  cases hp : s.cfg.ovfPolicy <;> simp only [overrun, hp] <;> exact ⟨hc, hheld, hqueue, hscript⟩

theorem overrun_rc_lt (hc : s.cfg.WellFormed) (hr : s.rc < s.cfg.cap) (b : Byte) :
    (overrun b s).rc < (overrun b s).cfg.cap := by
  rw [overrun_cfg, overrun_rc]
  split
  · exact nextIndex_lt hc _
  · exact hr

/-- What is unread after an overrun, per policy. -/
theorem CursorsFit.unread_overrun (h : CursorsFit s) (hc : s.cfg.WellFormed) (hr : s.rc < s.cfg.cap)
    (hf : bufferFull s) (hcap : s.cfg.ovfPolicy = .sourceCompat → s.cfg.cap < 65535) (b : Byte) :
    unread (overrun b s) = match s.cfg.ovfPolicy with
      | .overwriteOldest => (unread s).tail ++ [b]
      | .dropNewest => unread s
      | .sourceCompat => b :: ((unread s).tail ++ [b]) := by
  cases hp : s.cfg.ovfPolicy with
  | overwriteOldest => simp only [overrun, hp]; exact h.unread_stored_consumed hc hr hf b
  | dropNewest => simp only [overrun, hp]; rfl
  | sourceCompat => simp only [overrun, hp]; exact h.unread_stored_of_full hc hr hf (hcap hp) b

end Overrun

section Filled

variable {ys : List Byte} {rest : List Turn} {s t : State} (hc : s.cfg.WellFormed) (h0 : s.cnt = 0)
  (hrc : s.rc = 0) (hlen : ys.length = s.cfg.cap)

include hc h0 hrc hlen

/-- As many bytes as fit, received into an empty buffer, fill it and bring the write cursor round. -/
theorem Received.filled (ht : Received ys rest s t) :
    unread t = ys ∧ t.cnt.toNat = s.cfg.cap ∧ bufferFull t ∧ t.rc = 0 ∧ t.wc = 0 := by
  have hunread : unread t = ys := by rw [ht.queue, unread_of_cnt_zero h0, List.nil_append]
  have hcnt : t.cnt.toNat = s.cfg.cap := by rw [← unread_length, hunread, hlen]
  have hfull : bufferFull t := by rw [bufferFull, hcnt, ht.cfg]
  have hrct : t.rc = 0 := ht.rc.trans hrc
  have hr : t.rc < t.cfg.cap := ht.rc_lt (hrc ▸ hc.2.1)
  exact ⟨hunread, hcnt, hfull, hrct, (ht.fit.wc_eq_rc_of_full hr hfull).trans hrct⟩

/-- As many bytes as fit into an empty buffer, and one more. -/
theorem runSteps_overrun {z : Byte} (hrx : rxEnabled s = true) (hwc : s.wc = 0)
    (hs : s.script = ys.map Turn.rx ++ .rx z :: rest) :
    ∃ t, runSteps (s.cfg.cap + 1) s = .next (overrun z t) ∧ Received ys rest s t := by
  have hfit : CursorsFit s := ⟨by simp [h0], by simp [h0, hwc, hrc]⟩
  obtain ⟨t, hrun, ht⟩ := runSteps_received ys hc hrx hfit (by simp [h0, hlen]) hs
  obtain ⟨-, -, hfull, -⟩ := ht.filled hc h0 hrc hlen
  have hct : t.cfg.WellFormed := ht.wellFormed hc
  have hstep : step t = .next (overrun z { t with script := rest }) :=
    (step_of_script hct ht.script).trans (exec_rxEvent_eq_overrun (s := { t with script := rest }) hct
      (ht.rxEnabled.trans hrx) hfull (.inr (ht.fit.wc_lt hct)) z)
  refine ⟨{ t with script := rest }, ?_, ?_⟩
  · rw [← hlen, runSteps_add _ _ hrun, runSteps_one hstep]
  · obtain ⟨⟨buf, cnt, wc, rfl⟩, hfit', hunread⟩ := ht
    exact ⟨⟨buf, cnt, wc, rfl⟩, hfit', hunread⟩

/-- The counts and cursors of R73's table. -/
theorem Received.registers_of_overrun (ht : Received ys rest s t) (z : Byte)
    (hcap : s.cfg.ovfPolicy = .sourceCompat → s.cfg.cap < 65535) :
    (overrun z t).cnt.toNat = (if s.cfg.ovfPolicy = .sourceCompat then s.cfg.cap + 1 else s.cfg.cap) ∧
      (overrun z t).wc = (if s.cfg.ovfPolicy = .dropNewest then 0 else 1 % s.cfg.cap) ∧
      (overrun z t).rc = (if s.cfg.ovfPolicy = .overwriteOldest then 1 % s.cfg.cap else 0) := by
  obtain ⟨-, hcnt, -, hrct, hwct⟩ := ht.filled hc h0 hrc hlen
  rw [overrun_cnt, overrun_wc, overrun_rc, nextIndex, nextIndex, hrct, hwct, ht.cfg, Nat.zero_add]
  refine ⟨?_, rfl, rfl⟩
  split_ifs with hp
  · rw [count_succ (cap := s.cfg.cap + 1) (by omega) (hcap hp), hcnt]
  · exact hcnt

/-- The unread bytes of R73's table. -/
theorem Received.unread_of_overrun (ht : Received ys rest s t) (z : Byte)
    (hcap : s.cfg.ovfPolicy = .sourceCompat → s.cfg.cap < 65535) :
    unread (overrun z t) = match s.cfg.ovfPolicy with
      | .overwriteOldest => (ys ++ [z]).tail
      | .dropNewest => (ys ++ [z]).take s.cfg.cap
      | .sourceCompat => (ys ++ [z]).drop s.cfg.cap ++ (ys ++ [z]).tail := by
  obtain ⟨hunread, -, hfull, -⟩ := ht.filled hc h0 hrc hlen
  have hne : ys ≠ [] := List.ne_nil_of_length_pos (hlen ▸ hc.2.1)
  have hr : t.rc < t.cfg.cap := ht.rc_lt (hrc ▸ hc.2.1)
  have htail : (ys ++ [z]).tail = ys.tail ++ [z] := List.tail_append_of_ne_nil hne
  have hdrop : (ys ++ [z]).drop s.cfg.cap = [z] := List.drop_left' hlen
  refine (ht.fit.unread_overrun (ht.wellFormed hc) hr hfull (by rwa [ht.cfg]) z).trans ?_
  rw [hunread, ht.cfg]
  cases s.cfg.ovfPolicy with
  | overwriteOldest => exact htail.symm
  | dropNewest => exact (List.take_left' hlen).symm
  | sourceCompat => exact (congrArg₂ (· ++ ·) hdrop htail).symm

end Filled

/-- Settles O39: the buffer is filled and overrun, and what the policy leaves unread is what the READs answer. -/
theorem overflowOutcomePerPolicy : Obligations.OverflowOutcomePerPolicy := by
  intro xs rest s hc hen hie h0 hwc hrc hheld hlen hcap reads hqueue hscript
  obtain ⟨ys, z, rfl⟩ : ∃ ys z, xs = ys ++ [z] :=
    (List.eq_nil_or_concat' xs).resolve_left (by rintro rfl; simp at hlen)
  have hys : ys.length = s.cfg.cap := by simpa using hlen
  rw [List.append_assoc, replicate_add_two_append, List.map_append, List.append_assoc] at hscript
  rw [List.replicate_succ'] at hqueue
  obtain ⟨t, hrun, ht⟩ := runSteps_overrun hc h0 hrc hys (rxEnabled_iff.mpr ⟨hen, hie⟩) hwc hscript
  have hunread : unread (overrun z t) = reads := ht.unread_of_overrun hc h0 hrc hys z hcap
  have hr : t.rc < t.cfg.cap := ht.rc_lt (hrc ▸ hc.2.1)
  obtain ⟨u, hreport, hu, hu0, hresp⟩ :=
    Presenting.runSteps_report (congrArg List.length hunread) (overrun_rc_lt (ht.wellFormed hc) hr z)
      ((ht.presenting hc hheld hqueue).after_overrun z)
  obtain ⟨hcnt', hwc', hrc'⟩ := ht.registers_of_overrun hc h0 hrc hys z hcap
  refine ⟨overrun z t, answered [] rest 0x40000000 u, hrun, ?_, hcnt', overrun_rxOvf z t, hwc', hrc', ?_⟩
  · exact (runSteps_add _ 1 hreport).trans (runSteps_one (hu.step_read_empty hu0))
  · rw [answered_responses, hresp, hunread, overrun_responses, ht.responses]

end Sys2Proof.Machine

/-! SUPPORT. The bits of STAT's answer, a CLROVF with nothing to clear, and the obligations about status and control
(43_control.md). -/

namespace Sys2Proof.Machine

/-! ### The status word (R76) -/

/-- The flags from bit 0 upward; bit 7 has none. -/
theorem statFlags_getLsbD (s : State) (k : Nat) :
    (statFlags s).getLsbD k =
      [s.txBusy, s.rxOvf, s.rxEn, s.txEn, s.rxcIe, s.txcIe, s.u2x].getD k false := by
  by_cases hk : k < 8
  · change BitVec.getLsbD (w := 1 + 1 + 1 + 1 + 1 + 1 + 1 + 1) (statFlags s) k = _
    simp only [statFlags, BitVec.getLsbD_append, BitVec.getLsbD_ofBool]
    interval_cases k <;> simp
  · rw [BitVec.getLsbD_of_ge _ _ (by omega), List.getD_eq_default _ _ (by simp; omega)]

/-- The answer of STAT: the flags, `div` above them, and 0 at the top, where the status OK and the reserved bits
are. -/
theorem statWord_getLsbD (s : State) (k : Nat) :
    (responseWord .ok (statData s)).getLsbD k =
      if k < 8 then (statFlags s).getLsbD k else if k < 24 then s.div.getLsbD (k - 8) else false := by
  have hok : Status.ok.code.getLsbD (k - 30) = false := BitVec.getLsbD_zero
  rw [responseWord_getLsbD, statData_getLsbD, hok, ite_self]
  by_cases hk : k < 8
  · rw [if_pos hk, if_pos hk, if_pos (by omega)]
  · rw [if_neg hk, if_neg hk]

theorem statWord_top (s : State) : (responseWord .ok (statData s)).extractLsb' 24 8 = 0 := by
  apply BitVec.eq_of_getLsbD_eq
  intro k hk
  rw [BitVec.getLsbD_extractLsb', statWord_getLsbD, if_neg (by omega), if_neg (by omega), Bool.and_false]
  exact BitVec.getLsbD_zero.symm

/-- A byte of `div` stands 8 bits further up in the answer. -/
theorem statWord_divByte (s : State) {i : Nat} (hi : i ≤ 8) :
    (responseWord .ok (statData s)).extractLsb' (8 + i) 8 = s.div.extractLsb' i 8 := by
  apply BitVec.eq_of_getLsbD_eq
  intro k hk
  rw [BitVec.getLsbD_extractLsb', BitVec.getLsbD_extractLsb', statWord_getLsbD, if_neg (by omega),
    if_pos (by omega), show 8 + i + k - 8 = i + k by omega]

/-- Settles O44: each field is read off the bits of the answer. -/
theorem statReportsEveryField : Obligations.StatReportsEveryField := by
  intro s hc
  refine ⟨responseWord .ok (statData s), exec_stat hc, statWord_top s, statWord_divByte s (i := 8) (by decide),
    statWord_divByte s (i := 0) (by decide), ?flags⟩
  case flags => simp [-BitVec.getLsbD_eq_getElem, statWord_getLsbD, statFlags_getLsbD]

/-! ### The overflow flag cleared (R77) -/

/-- A CLROVF with no flag to clear only answers. -/
theorem exec_clrovf_of_clear {s : State} (hc : s.cfg.WellFormed) (hclear : s.rxOvf = false) :
    exec .clrovf s = .next { s with responses := s.responses ++ [0x00000000] } := by
  have hsame : { s with rxOvf := false } = s := by rw [← hclear]
  rw [exec_clrovf hc, hsame, respond_ok_zero]

/-- Settles O45: the second CLROVF finds the flag clear, and the buffer is still full for the byte that arrives. -/
theorem clrovfClearsOnlyTheFlag : Obligations.ClrovfClearsOnlyTheFlag := by
  intro s hc
  refine ⟨{ s with rxOvf := false, responses := s.responses ++ [0x00000000] }, ?answer, rfl,
    exec_clrovf_of_clear hc rfl, fun hen hie hf hw b => ?overflow⟩
  case answer => rw [exec_clrovf hc, respond_ok_zero]
  case overflow =>
    have hrx : rxEnabled s = true := rxEnabled_iff.mpr ⟨hen, hie⟩
    exact ⟨_, exec_rxEvent_eq_overrun (s := { s with rxOvf := false, responses := _ }) hc hrx hf (.inr hw) b,
      overrun_rxOvf b _⟩

end Sys2Proof.Machine

/-! SUPPORT. Why a command is turned away, when an instruction answers at all, and the obligations about statuses
and exceptions (60_exceptions.md). -/

namespace Sys2Proof.Machine

/-! ### Answers that are not OK (R78) -/

/-- R78: which command is turned away in state `s`, with which status. -/
inductive TurnedAway (s : State) : Instr → Status → Prop where
  | empty : s.cnt = 0 → TurnedAway s .read .empty
  | notInit (b : Byte) : s.txEn = false → TurnedAway s (.send b) .notInit
  | illegal (hs : Bool) : TurnedAway s (.init 0 hs) .illegal

/-- An instruction answers nothing, answers OK, or is turned away, which raises its status and does nothing else. -/
theorem answer_cases_of_exec {i : Instr} {s t : State} (e : exec i s = .next t) :
    t.responses = s.responses ∨ (∃ d, t.responses = s.responses ++ [responseWord .ok d]) ∨
      ∃ st, TurnedAway s i st ∧ t = raise st s := by
  cases i with
  | init baud hs =>
    obtain ⟨-, ⟨rfl, rfl⟩ | ⟨-, -, rfl⟩ | ⟨-, -, rfl⟩⟩ := execInit_cases e
    · exact .inr (.inr ⟨.illegal, .illegal hs, rfl⟩)
    · exact .inl rfl
    · exact .inr (.inl ⟨_, rfl⟩)
  | send b =>
    obtain ⟨-, ⟨hoff, rfl⟩ | ⟨-, -, rfl⟩ | ⟨-, -, rfl⟩⟩ := execSend_cases e
    · exact .inr (.inr ⟨.notInit, .notInit b hoff, rfl⟩)
    · exact .inl rfl
    · exact .inr (.inl ⟨_, rfl⟩)
  | pend => obtain ⟨-, rfl⟩ := execPend_cases e; exact .inr (.inl ⟨_, rfl⟩)
  | read =>
    obtain ⟨-, ⟨h0, rfl⟩ | ⟨-, -, rfl⟩⟩ := execRead_cases e
    · exact .inr (.inr ⟨.empty, .empty h0, rfl⟩)
    · exact .inr (.inl ⟨_, rfl⟩)
  | stat => obtain ⟨-, rfl⟩ := execStat_cases e; exact .inr (.inl ⟨_, rfl⟩)
  | clrovf => obtain ⟨-, rfl⟩ := execClrovf_cases e; exact .inr (.inl ⟨_, rfl⟩)
  | rxEvent b => exact .inl (host_of_exec_event rfl e).1
  | txDone => exact .inl (host_of_exec_event rfl e).1

/-- Only a command that is turned away gets an answer that is not OK. -/
theorem turnedAway_of_status_ne_ok {i : Instr} {s t : State} {r : Word} (e : exec i s = .next t)
    (hr : t.responses = s.responses ++ [r]) (hst : r.extractLsb' 30 2 ≠ Status.ok.code) :
    ∃ st, TurnedAway s i st ∧ t = raise st s ∧ r = responseWord st 0 := by
  rcases answer_cases_of_exec e with hsame | ⟨d, hok⟩ | ⟨st, hcause, rfl⟩
  · rw [hsame] at hr
    simp at hr
  · rw [hok, List.append_cancel_left_eq, List.singleton_inj] at hr
    exact absurd (responseWord_status .ok d) (hr ▸ hst)
  · rw [raise_responses, List.append_cancel_left_eq, List.singleton_inj] at hr
    exact ⟨st, hcause, rfl, hr.symm⟩

/-- Settles O47: the command was turned away, and the status of each cause has its own code. -/
theorem nonOkAnswersChangeNothing : Obligations.NonOkAnswersChangeNothing := by
  intro i s t r e hr hst
  obtain ⟨st, hcause, rfl, rfl⟩ := turnedAway_of_status_ne_ok e hr hst
  refine ⟨rfl, responseData_responseWord st 0, ?_⟩
  rw [responseWord_status]
  cases hcause with
  | empty h0 => exact ⟨fun _ => ⟨rfl, h0⟩, fun h => absurd h (by decide), fun h => absurd h (by decide)⟩
  | notInit b hoff =>
    exact ⟨fun h => absurd h (by decide), fun _ => ⟨⟨b, rfl⟩, hoff⟩, fun h => absurd h (by decide)⟩
  | illegal hs => exact ⟨fun h => absurd h (by decide), fun h => absurd h (by decide), fun _ => ⟨hs, rfl⟩⟩

/-! ### Every instruction answers under the invariant (R80) -/

section Answers

variable {s : State} (hc : s.cfg.WellFormed)

include hc

/-- INIT is turned away, held or accepted. -/
theorem exec_init_isNext (baud : BitVec 24) (hs : Bool) : ∃ t, exec (.init baud hs) s = .next t := by
  by_cases h0 : baud = 0
  · subst h0
    exact ⟨_, exec_init_of_zero hc hs⟩
  · cases hb : s.txBusy with
    | true => exact ⟨_, exec_init_of_busy hc h0 hb hs⟩
    | false => exact ⟨_, exec_init_of_idle hc h0 hb hs⟩

/-- SEND is turned away, held or accepted. -/
theorem exec_send_isNext (b : Byte) : ∃ t, exec (.send b) s = .next t := by
  cases hen : s.txEn with
  | false => exact ⟨_, exec_send_of_off hc hen b⟩
  | true =>
    cases hb : s.txBusy with
    | true => exact ⟨_, exec_send_of_busy hc hen hb b⟩
    | false => exact ⟨_, exec_send_of_idle hc hen hb b⟩

/-- READ answers where the read cursor names a slot. -/
theorem exec_read_isNext (hr : s.rc < s.cfg.cap) : ∃ t, exec .read s = .next t := by
  by_cases h0 : s.cnt = 0
  · exact ⟨_, exec_read_of_zero hc h0⟩
  · exact ⟨_, exec_read_of_ne_zero hc h0 hr⟩

theorem exec_txDone_isNext : ∃ t, exec .txDone s = .next t := by
  cases hdone : txDoneEnabled s with
  | true => exact ⟨_, exec_txDone_of_enabled hc hdone⟩
  | false => exact ⟨_, exec_txDone_of_disabled hc hdone⟩

end Answers

/-- The legal configuration rules out the refusal, and the cursors on their slots the fault. -/
theorem Inv.exec_isNext {s : State} (h : Inv s) (i : Instr) : ∃ t, exec i s = .next t := by
  have hc := h.config
  cases i with
  | init baud hs => exact exec_init_isNext hc baud hs
  | send b => exact exec_send_isNext hc b
  | pend => exact ⟨_, exec_pend hc⟩
  | read => exact exec_read_isNext hc h.readCursor
  | stat => exact ⟨_, exec_stat hc⟩
  | clrovf => exact ⟨_, exec_clrovf hc⟩
  | rxEvent b => exact exec_rxEvent_isNext ⟨hc, h.writeCursor⟩ b
  | txDone => exact exec_txDone_isNext hc

/-- A step runs an instruction in a fetched state, which meets the invariant, or runs none and answers anyway. -/
theorem Inv.step_isNext {s : State} (h : Inv s) : ∃ t, step s = .next t := by
  cases hi : issued s with
  | some i =>
    rw [step_of_issued h.config hi]
    exact h.after_fetch.exec_isNext i
  | none =>
    obtain ⟨-, -, ⟨-, e⟩ | ⟨_, _, _, -, -, e⟩⟩ := step_of_not_issued h.config hi
    · exact ⟨_, e⟩
    · exact ⟨_, e⟩

/-- Settles O53: the invariant is all that a step or an instruction needs to answer. -/
theorem neverFaultsNorRefuses : Obligations.NeverFaultsNorRefuses := fun _ h => ⟨h.step_isNext, h.exec_isNext⟩

end Sys2Proof.Machine

/-! SUPPORT. What a run reaches where the TX line and the host take their turns, what a step does after the end of a
run, the block before the first INIT, and the obligations about reset and hazards (70_reset_and_hazards.md). -/

namespace Sys2Proof.Machine

/-! ### What a run keeps, or reaches (R103) -/

/-- A run keeps a claim that each step keeps or trades for the goal, or has reached the goal on its way. -/
theorem reached_or_kept_of_runSteps {Kept Goal : State → Prop}
    (keeps : ∀ {v w}, Kept v → step v = .next w → Goal w ∨ Kept w) {n : Nat} {s t : State} (h : Kept s)
    (e : runSteps n s = .next t) : (∃ m u, runSteps m s = .next u ∧ Goal u) ∨ Kept t := by
  induction n generalizing s with
  | zero => cases e; exact .inr h
  | succ n ih =>
    obtain ⟨v, hv, e⟩ := exists_step_of_runSteps e
    rcases keeps h hv with hgoal | hkept
    · exact .inl ⟨1, v, runSteps_one hv, hgoal⟩
    · refine (ih hkept e).imp_left fun ⟨m, u, hu, hgoal⟩ => ⟨m + 1, u, ?_, hgoal⟩
      rw [runSteps_succ hv, hu]

/-- What is claimed of every state of a run is claimed of every state of the run from a later one. -/
theorem TxCompletes.after_runSteps {k : Nat} {s u : State} (h : TxCompletes s) (e : runSteps k s = .next u) :
    TxCompletes u := fun n t ht => h (k + n) t ((runSteps_add k n e).trans ht)

theorem HostProceeds.after_runSteps {k : Nat} {s u : State} (h : HostProceeds s) (e : runSteps k s = .next u) :
    HostProceeds u := fun n t ht => h (k + n) t ((runSteps_add k n e).trans ht)

/-! ### The byte in flight departs (R64, R103) -/

/-- In `t` the byte in flight in `s` is still in flight. -/
structure StaysInFlight (s t : State) : Prop where
  txBusy : t.txBusy = true
  txShift : t.txShift = s.txShift
  txWire : t.txWire = s.txWire

/-- In `t` the byte in flight in `s` is on the record, and the transmitter is free. -/
structure Departed (s t : State) : Prop where
  txBusy : t.txBusy = false
  txWire : t.txWire = s.txWire ++ [s.txShift]

theorem StaysInFlight.refl {s : State} (hb : s.txBusy = true) : StaysInFlight s s := ⟨hb, rfl, rfl⟩

theorem StaysInFlight.trans {s t u : State} (h : StaysInFlight s t) (k : StaysInFlight t u) : StaysInFlight s u :=
  ⟨k.txBusy, k.txShift.trans h.txShift, k.txWire.trans h.txWire⟩

theorem StaysInFlight.departed {s t u : State} (h : StaysInFlight s t) (k : Departed t u) : Departed s u :=
  ⟨k.txBusy, by rw [k.txWire, h.txWire, h.txShift]⟩

/-- Only a TX_DONE moves the line while a byte is in flight: a SEND is held behind it (R63, R64). -/
theorem departed_or_stays_of_exec {i : Instr} {s t : State} (hb : s.txBusy = true) (e : exec i s = .next t) :
    Departed s t ∨ StaysInFlight s t := by
  obtain ⟨-, -, -, -, -, -, hbusy, hshift, -, -, -, -, hwire⟩ := onlyTheNamedWritersWrite i s t e
  have stays (hdone : i ≠ .txDone) (hsend : t.txShift = s.txShift) : StaysInFlight s t := by
    refine ⟨by_contra fun hidle => hdone ?_, hsend, by_contra fun hne => hdone (hwire hne)⟩
    simpa [hidle] using hbusy (by rwa [hb])
  cases i with
  | txDone =>
    obtain ⟨-, ⟨-, rfl⟩ | ⟨-, rfl⟩⟩ := execTxDone_cases e
    · exact .inl ⟨rfl, rfl⟩
    · exact .inr (.refl hb)
  | send b =>
    obtain ⟨-, ⟨-, rfl⟩ | ⟨-, -, rfl⟩ | ⟨-, hidle, -⟩⟩ := execSend_cases e
    · exact .inr ⟨hb, rfl, rfl⟩
    · exact .inr ⟨hb, rfl, rfl⟩
    · rw [hb] at hidle; cases hidle
  | _ => exact .inr (stays (by simp) (by_contra fun hne => by simpa using hshift hne))

theorem departed_or_stays_of_step {s t : State} (hb : s.txBusy = true) (e : step s = .next t) :
    Departed s t ∨ StaysInFlight s t := by
  rcases exec_fetched_or_sameBlock e with ⟨i, -, e'⟩ | ⟨-, _, _, _, _, _, rfl⟩
  · refine (departed_or_stays_of_exec (by simpa using hb) e').imp (fun h => ?_) fun h => ?_
    · exact ⟨h.txBusy, by simpa using h.txWire⟩
    · exact ⟨h.txBusy, by simpa using h.txShift, by simpa using h.txWire⟩
  · exact .inr ⟨hb, rfl, rfl⟩

theorem Inv.txDoneEnabled_of_busy {s : State} (h : Inv s) (hb : s.txBusy = true) : txDoneEnabled s = true :=
  txDoneEnabled_iff.mpr ⟨hb, (h.transmitter hb).2⟩

/-- With a byte in flight, the turn of the TX line is its departure. -/
theorem Inv.step_departs {s : State} (h : Inv s) (hb : s.txBusy = true) (hn : nextTurn s = .txDone) :
    ∃ t, step s = .next t ∧ Departed s t := by
  have hdone : txDoneEnabled (takeTurn s) = true := by
    simpa [txDoneEnabled] using h.txDoneEnabled_of_busy hb
  have hc : (takeTurn s).cfg.WellFormed := by simpa using h.config
  refine ⟨_, (step_of_nextTurn h.config hn).trans (exec_txDone_of_enabled hc hdone), rfl, by simp⟩

/-- Settles O25: up to the turn that TX_COMPLETES promises the byte stays in flight or has departed, and at that
turn it departs. -/
theorem inFlightDepartsUnderTxCompletes : Obligations.InFlightDepartsUnderTxCompletes := by
  intro s hinv hb hfair
  obtain ⟨m, u, hrun, hn⟩ := hfair 0 s rfl (hinv.txDoneEnabled_of_busy hb)
  have along := reached_or_kept_of_runSteps (Kept := StaysInFlight s) (Goal := Departed s)
    (fun hv e => (departed_or_stays_of_step hv.txBusy e).imp hv.departed hv.trans) (.refl hb) hrun
  rcases along with ⟨n, t, ht, hdep⟩ | hstays
  · exact ⟨n, t, ht, hdep.txBusy, hdep.txWire⟩
  · obtain ⟨t, hstep, hdep⟩ := (hinv.after_runSteps hrun).step_departs hstays.txBusy hn
    have hdep := hstays.departed hdep
    exact ⟨m + 1, t, (runSteps_add m 1 hrun).trans (runSteps_one hstep), hdep.txBusy, hdep.txWire⟩

/-! ### A program of command words ends (R103, R104) -/

/-- A program of words only, with no RECV loop (R57). -/
def CommandWords (program : List HostItem) : Prop := ∀ x ∈ program, ∃ w, x = .word w

theorem CommandWords.of_suffix {p q : List HostItem} (h : CommandWords p) (hs : q <:+ p) : CommandWords q :=
  fun x hx => h x (hs.mem hx)

/-- A host of command words presents the first of them, if there is one. -/
theorem CommandWords.hostPresents_cases {s : State} (h : CommandWords s.hostQueue) :
    (s.hostQueue = [] ∧ hostPresents s = none) ∨
      ∃ w rest, s.hostQueue = .word w :: rest ∧ hostPresents s = some (w, rest) := by
  cases hq : s.hostQueue with
  | nil => exact .inl ⟨rfl, hostPresents_of_nil hq⟩
  | cons x rest =>
    obtain ⟨w, rfl⟩ := h x (by simp [hq])
    exact .inr ⟨w, rest, rfl, hostPresents_of_word hq⟩

/-- A bound on the host's and the TX line's effective steps before the end: a word may be held and then be in flight,
a held command may then be in flight, and a byte in flight has its departure before it. -/
def owed (s : State) : Nat := 4 * s.hostQueue.length + 2 * s.held.isSome.toNat + s.txBusy.toNat

/-- Part of what `s` owes has been done in `t`, and nothing has been added to the host's program. -/
structure Advanced (s t : State) : Prop where
  owed_lt : owed t < owed s
  hostQueue : t.hostQueue <:+ s.hostQueue

/-- In `t` the host and the transmitter stand where they stand in `s`. -/
structure StandsStill (s t : State) : Prop where
  hostQueue : t.hostQueue = s.hostQueue
  held : t.held = s.held
  txBusy : t.txBusy = s.txBusy

theorem StandsStill.trans {s t u : State} (h : StandsStill s t) (k : StandsStill t u) : StandsStill s u :=
  ⟨k.hostQueue.trans h.hostQueue, k.held.trans h.held, k.txBusy.trans h.txBusy⟩

theorem StandsStill.advanced {s t u : State} (h : StandsStill s t) (k : Advanced t u) : Advanced s u := by
  obtain ⟨hlt, hqueue⟩ := k
  rw [owed, owed, h.hostQueue, h.held, h.txBusy] at hlt
  exact ⟨hlt, h.hostQueue ▸ hqueue⟩

theorem StandsStill.hostHasStep {s t : State} (h : StandsStill s t) : hostHasStep t = hostHasStep s := by
  rw [Machine.hostHasStep, Machine.hostHasStep, h.hostQueue, h.held, h.txBusy]

/-- Whose turn, if it is next, advances the program: the TX line's with a byte in flight, and the host's where it has
a step. -/
def Due (s : State) : Turn → Prop
  | .host => hostHasStep s = true
  | .rx _ => False
  | .txDone => s.txBusy = true

theorem StandsStill.due {s t : State} (h : StandsStill s t) {turn : Turn} (hdue : Due s turn) : Due t turn := by
  cases turn with
  | host => exact h.hostHasStep.trans hdue
  | rx b => exact hdue
  | txDone => exact h.txBusy.trans hdue

/-- The retry of a held command leaves it held behind the byte in flight, or answers it (R12). -/
theorem standsStill_or_advanced_of_held {s t : State} {i : Instr} (hinv : Inv s) (hh : s.held = some i)
    (e : exec i { takeTurn s with held := none } = .next t) :
    (StandsStill s t ∧ hostHasStep s = false) ∨ Advanced s t := by
  have hqueue : t.hostQueue = s.hostQueue := (hostQueue_of_exec e).trans (takeTurn_hostQueue s)
  have hcommand : i.isEvent = false := by
    obtain ⟨-, -, ⟨b, rfl⟩ | ⟨baud, hs, rfl⟩⟩ := hinv.heldCommand i hh <;> rfl
  rcases held_or_answersOnce_of_exec hcommand e with ⟨rfl, hb, -⟩ | ⟨hheld, -⟩
  · have hb : s.txBusy = true := by simpa using hb
    exact .inl ⟨⟨hqueue, hh.symm, by simp⟩, by simp [hostHasStep, hh, hb]⟩
  · refine .inr ⟨?_, hqueue ▸ List.suffix_refl _⟩
    have hle := t.txBusy.toNat_le
    have hnone : t.held = none := hheld
    rw [owed, owed, hqueue, hnone, hh, Option.isSome_none, Option.isSome_some, Bool.toNat_false, Bool.toNat_true]
    omega

/-- A word presented leaves the program, whatever becomes of it. -/
theorem advanced_of_presentWord {s t : State} {w : Word} {rest : List HostItem}
    (hqueue : s.hostQueue = .word w :: rest) (hrest : t.hostQueue = rest) : Advanced s t := by
  have hheld := t.held.isSome.toNat_le
  have hbusy := t.txBusy.toNat_le
  refine ⟨?_, ⟨[.word w], by rw [hrest, hqueue]; rfl⟩⟩
  simp only [owed, hqueue, hrest, List.length_cons]
  omega

/-- A step advances the program, or leaves it where it stands, which a turn that is due does not. -/
theorem standsStill_or_advanced_of_step {s t : State} (hinv : Inv s) (hwords : CommandWords s.hostQueue)
    (e : step s = .next t) : (StandsStill s t ∧ ¬Due s (nextTurn s)) ∨ Advanced s t := by
  rcases turn_cases e with ⟨hsame, hhost, htx⟩ | ⟨-, hb, -, rfl⟩ | ⟨hn, i, hh, e'⟩ | ⟨-, -, w, rest, hp, e'⟩
  · refine .inl ⟨⟨hsame.hostQueue, hsame.held, hsame.sameLine.txBusy⟩, fun hdue => ?_⟩
    cases hn : nextTurn s with
    | host =>
      obtain ⟨hheld, hnone⟩ := hhost hn
      obtain ⟨hnil, -⟩ | ⟨w, rest, -, hp⟩ := hwords.hostPresents_cases
      · simp [hn, Due, hostHasStep, hheld, hnil] at hdue
      · rw [hnone] at hp; cases hp
    | rx b => simp [hn, Due] at hdue
    | txDone =>
      have hb : s.txBusy = true := by simpa [hn, Due] using hdue
      exact htx hn ⟨hb, (hinv.transmitter hb).2⟩
  · exact .inr ⟨by simp [owed, hb], by simp⟩
  · refine (standsStill_or_advanced_of_held hinv hh e').imp_left fun ⟨hstill, hno⟩ => ⟨hstill, ?_⟩
    simp [hn, Due, hno]
  · obtain ⟨-, hnone⟩ | ⟨w', rest', hqueue, hp'⟩ := hwords.hostPresents_cases
    · rw [hnone] at hp; cases hp
    · rw [hp'] at hp; cases hp
      exact .inr (advanced_of_presentWord hqueue (hostQueue_of_presentWord e'))

/-- A host of command words in a run that meets both premises of R103. -/
structure FairProgram (s : State) : Prop where
  inv : Inv s
  words : CommandWords s.hostQueue
  txCompletes : TxCompletes s
  hostProceeds : HostProceeds s

/-- A run that has not ended has a turn due, and the premises of R103 promise it. -/
theorem FairProgram.exists_due {s : State} (h : FairProgram s) (hnot : ¬RunEnded s) :
    ∃ turn, Due s turn ∧ ∃ m u, runSteps m s = .next u ∧ nextTurn u = turn := by
  cases hb : s.txBusy with
  | true => exact ⟨.txDone, hb, h.txCompletes 0 s rfl (h.inv.txDoneEnabled_of_busy hb)⟩
  | false =>
    have hstep : hostHasStep s = true := by
      cases hh : s.held with
      | some i => simp [hostHasStep, hh, hb]
      | none =>
        have hqueue : s.hostQueue ≠ [] := fun hq => hnot ⟨hq, hh, hb⟩
        simpa [hostHasStep, hh] using hqueue
    exact ⟨.host, hstep, h.hostProceeds 0 s rfl hstep⟩

/-- Up to the turn that is due the program stands still or has advanced, and at that turn it advances. -/
theorem FairProgram.exists_advanced {s : State} (h : FairProgram s) (hnot : ¬RunEnded s) :
    ∃ n t, runSteps n s = .next t ∧ Advanced s t := by
  obtain ⟨turn, hdue, m, u, hrun, rfl⟩ := h.exists_due hnot
  have along := reached_or_kept_of_runSteps (Kept := fun v => Inv v ∧ StandsStill s v) (Goal := Advanced s)
    (fun ⟨hinv, hstill⟩ e => by
      rcases standsStill_or_advanced_of_step hinv (hstill.hostQueue ▸ h.words) e with ⟨hstill', -⟩ | hadv
      · exact .inr ⟨stepKeepsTheInvariant _ _ hinv e, hstill.trans hstill'⟩
      · exact .inl (hstill.advanced hadv))
    ⟨h.inv, ⟨rfl, rfl, rfl⟩⟩ hrun
  rcases along with hdone | ⟨hinv, hstill⟩
  · exact hdone
  · obtain ⟨t, hstep⟩ := hinv.step_isNext
    rcases standsStill_or_advanced_of_step hinv (hstill.hostQueue ▸ h.words) hstep with ⟨-, hnotDue⟩ | hadv
    · exact absurd (hstill.due hdue) hnotDue
    · exact ⟨m + 1, t, (runSteps_add m 1 hrun).trans (runSteps_one hstep), hstill.advanced hadv⟩

/-- The premises hold on from where the program has advanced to. -/
theorem FairProgram.after_advance {n : Nat} {s t : State} (h : FairProgram s) (e : runSteps n s = .next t)
    (hadv : Advanced s t) : FairProgram t :=
  ⟨h.inv.after_runSteps e, h.words.of_suffix hadv.hostQueue, h.txCompletes.after_runSteps e,
    h.hostProceeds.after_runSteps e⟩

/-- By induction on what is owed. -/
theorem FairProgram.exists_runEnded {s : State} (h : FairProgram s) :
    ∃ n t, runSteps n s = .next t ∧ RunEnded t := by
  induction hk : owed s using Nat.strong_induction_on generalizing s with
  | _ k ih =>
    by_cases hend : RunEnded s
    · exact ⟨0, s, rfl, hend⟩
    · obtain ⟨n, t, hrun, hadv⟩ := h.exists_advanced hend
      obtain ⟨m, u, hrun', hu⟩ := ih (owed t) (hk ▸ hadv.owed_lt) (h.after_advance hrun hadv) rfl
      exact ⟨n + m, u, (runSteps_add n m hrun).trans hrun', hu⟩

/-- A run that reaches an ended state has a first one (R104). -/
theorem exists_endsAt {s : State} (h : ∃ n t, runSteps n s = .next t ∧ RunEnded t) : ∃ n t, EndsAt s n t := by
  classical
  obtain ⟨t, hrun, ht⟩ := Nat.find_spec h
  exact ⟨Nat.find h, t, hrun, ht, fun m hm u hu hend => Nat.find_min h hm ⟨u, hu, hend⟩⟩

/-- Settles O28: what the program owes runs out, and the first ended state is the end. -/
theorem hostProgramEnds : Obligations.HostProgramEnds := fun _ hinv hwords htx hhost =>
  exists_endsAt (FairProgram.mk hinv hwords htx hhost).exists_runEnded

/-! ### The end of a run (R104) -/

/-- Before the first end point of a run there is none, so no two are first. -/
theorem EndsAt.unique {n m : Nat} {s t u : State} (h : EndsAt s n t) (k : EndsAt s m u) : t = u := by
  obtain ⟨hrun, ht, hfirst⟩ := h
  obtain ⟨hrun', hu, hfirst'⟩ := k
  rcases Nat.lt_trichotomy n m with hlt | rfl | hgt
  · exact absurd ht (hfirst' n hlt t hrun)
  · rw [hrun] at hrun'; cases hrun'; rfl
  · exact absurd hu (hfirst m hgt u hrun')

/-- After the end a turn passes, or it is a byte that arrives. -/
theorem RunEnded.step_cases {s t : State} (h : RunEnded s) (e : step s = .next t) :
    t = takeTurn s ∨ ∃ b, nextTurn s = .rx b ∧ exec (.rxEvent b) (takeTurn s) = .next t := by
  obtain ⟨hqueue, hheld, hb⟩ := h
  have hc := wellFormed_of_step e
  cases hn : nextTurn s with
  | host =>
    rw [step_of_hostPresents_none hc hn hheld (hostPresents_of_nil hqueue)] at e
    cases e; exact .inl rfl
  | rx b => exact .inr ⟨b, rfl, (step_of_nextTurn hc hn).symm.trans e⟩
  | txDone =>
    have hoff : txDoneEnabled (takeTurn s) = false := by simp [txDoneEnabled, hb]
    rw [step_of_nextTurn hc hn, agentTurn, exec_txDone_of_disabled (by simpa using hc) hoff] at e
    cases e; exact .inl rfl

/-- A RX_EVENT writes no enable (R17, R20). -/
theorem rxEnables_of_rxEvent {b : Byte} {s t : State} (e : exec (.rxEvent b) s = .next t) :
    t.rxEn = s.rxEn ∧ t.rxcIe = s.rxcIe := by
  obtain ⟨-, hinit, -⟩ := onlyTheNamedWritersWrite _ _ _ e
  constructor <;> by_contra hne <;> simp [hne] at hinit

theorem observation_takeTurn (s : State) : (takeTurn s).observation = s.observation := by
  simp [State.observation]

/-- Settles O29: the first end point is unique; after it a turn passes or a byte arrives, which leaves all but the
receive state alone. -/
theorem endOfARun : Obligations.EndOfARun := by
  refine ⟨fun s o o' ⟨_, _, hend, ho⟩ ⟨_, _, hend', ho'⟩ => ?unique, fun s t hended e => ?frame⟩
  case unique => rw [ho, ho', hend.unique hend']
  case frame =>
    rcases hended.step_cases e with rfl | ⟨b, hn, e'⟩
    · simpa [observation_takeTurn, RunEnded] using hended
    · obtain ⟨hqueue, hheld, hb⟩ := hended
      obtain ⟨hrxEn, hrxcIe⟩ : t.rxEn = s.rxEn ∧ t.rxcIe = s.rxcIe := by simpa using rxEnables_of_rxEvent e'
      obtain ⟨-, hdiv, hu2x, htxEn, htxcIe, hbusy', hshift, hwire, hresp, hheld', hqueue'⟩ :
          SameButReceive s t := by simpa [SameButReceive] using (sameButReceive_of_rxEvent e').1
      exact ⟨⟨hqueue'.trans hqueue, hheld'.trans hheld, hbusy'.trans hb⟩, hresp, hwire, hshift, hdiv, hu2x, hrxEn,
        htxEn, hrxcIe, htxcIe, fun _ => ⟨b, by rw [issued, hn]⟩⟩

/-! ### Before the first INIT (R95) -/

/-- With the receiver off nothing is received. -/
theorem rxBytes_record_of_disabled {s : State} (hrx : rxEnabled s = false) (h : History) (i : Instr) :
    (h.record i s).rxBytes = h.rxBytes := by
  cases i with
  | rxEvent b => rw [record_rxEvent_of_disabled h hrx]
  | read => rw [History.record]; split <;> rfl
  | _ => exact (record_other (by simp) (by simp) h s).1

theorem rxBytes_afterStep_of_disabled {s : State} (hrx : rxEnabled s = false) (h : History) :
    (h.afterStep s).rxBytes = h.rxBytes := by
  cases hi : issued s with
  | none => rw [afterStep_of_not_issued hi]
  | some i => rw [History.afterStep, hi]; exact rxBytes_record_of_disabled hrx h i

/-- No step turns the transmitter off (R20). -/
theorem txEn_off_before {s t : State} (e : step s = .next t) (hoff : t.txEn = false) : s.txEn = false := by
  rcases exec_fetched_or_sameBlock e with ⟨i, -, e'⟩ | ⟨-, _, _, _, _, _, rfl⟩
  · obtain ⟨-, -, -, hon, -⟩ := onlyTheNamedWritersWrite _ _ _ e'
    by_contra hne
    have hstill := hon (by rw [hoff, fetched_txEn]; exact Ne.symm hne)
    rw [hoff] at hstill; cases hstill
  · exact hoff

/-- With the transmitter off the receiver is off too (R20). -/
theorem Inv.rxEnabled_of_off {s : State} (h : Inv s) (hoff : s.txEn = false) : rxEnabled s = false :=
  Bool.eq_false_iff.mpr fun hrx => by simp [h.txEn_of_rxEnabled hrx] at hoff

/-- Nothing has been received while the transmitter has not been turned on. -/
theorem Run.rxBytes_of_off {s : State} {h : History} (r : Run s h) (hoff : s.txEn = false) : h.rxBytes = [] := by
  induction r with
  | powerOn => rfl
  | step r e ih =>
    have hbefore := txEn_off_before e hoff
    rw [rxBytes_afterStep_of_disabled (r.inv.rxEnabled_of_off hbefore), ih hbefore]

/-- Every field that STAT reports is 0 before the first INIT (R95). -/
theorem Inv.statData_of_off {s : State} (h : Inv s) (hoff : s.txEn = false) : statData s = 0 := by
  obtain ⟨hdiv, hu2x, hbusy, -, -, -, -, hovf, -⟩ := h.beforeInit hoff
  obtain ⟨hrxEn, hrxcIe, htxcIe⟩ := h.enables
  simp [statData, statFlags, hdiv, hu2x, hbusy, hovf, hrxEn, hrxcIe, htxcIe, hoff]

/-- Settles O54: the invariant says what the block holds while the transmitter is off, and the history of the run
that no byte was received or sent. -/
theorem beforeInit : Obligations.BeforeInit := by
  intro s h r hoff
  have hinv := r.inv
  have hc := hinv.config
  obtain ⟨-, -, hbusy, -, -, -, hcnt, -, hwire⟩ := hinv.beforeInit hoff
  refine ⟨fun b => (sendStartsTransmission b s hc).1 hoff, ?pend, ?read, ?stat,
    exec_rxEvent_of_disabled hc (hinv.rxEnabled_of_off hoff), hwire, ?sent, r.rxBytes_of_off hoff⟩
  case pend =>
    have hzero : zext24 s.cnt = 0 := by rw [hcnt]; rfl
    rw [exec_pend hc, hzero, respond_ok_zero]
  case read => exact (readConsumesTheByte s hc).1 hcnt
  case stat => rw [exec_stat hc, hinv.statData_of_off hoff, respond_ok_zero]
  case sent => rw [r.sentBytes_eq, hwire, inFlight, hbusy]; rfl

/-! ### Power-on (R93, R94) -/

/-- Settles O51: nothing is held, stored or in flight at power-on, and reset is the power-on of this hardware. -/
theorem powerOnMeetsTheInvariant : Obligations.PowerOnMeetsTheInvariant :=
  ⟨inv_powerOn (c := .thisHardware) (by decide) [] [] 0x00 0,
    fun _ program turns shift n hc => inv_powerOn hc program turns shift n⟩

end Sys2Proof.Machine
